-- ==== Sys2Proof/Word.lean ====
section
/-! DEFINITION. The bit-vector types of the CORE (spec 00_scope.md R5, R6): what the spec treats as bits, at its widths.
Everything is unsigned (R8); results are reduced to their width by the rule that makes them. -/

namespace Sys2Proof

/-- A byte: a general register, a timer, a memory cell, an immediate kk (00_scope.md R5). -/
abbrev Byte := BitVec 8

/-- A 16-bit value: PC, I, a stack entry, an instruction word (00_scope.md R5, R6). -/
abbrev Word := BitVec 16

/-- A 4-bit field: a register index x or y, a row count n, an op nibble (30_encoding.md R72). -/
abbrev Nibble := BitVec 4

/-- A 12-bit address field addr (30_encoding.md R72). -/
abbrev Addr := BitVec 12

end Sys2Proof
end

