-- ==== Sys2Proof/Machine/Flags.lean ====
section
/-! DEFINITION. Every flag computation of the CORE, each giving the byte 0 or 1 that VF receives (spec 10_state.md R21): carry
(41_alu.md R129), strict not-borrow (R130, R132), shifted-out bits (R131, R133), collision (43_display.md R164). -/

namespace Sys2Proof.Machine

/-- A flag as the byte VF holds. -/
def flagByte (c : Bool) : Byte := if c then 1 else 0

/-- Carry out of bit 7: (sum > 255) ? 1 : 0 with the exact sum (41_alu.md R129). -/
def carryFlag (a b : Byte) : Byte := flagByte (decide (a.toNat + b.toNat > 255))

/-- Not-borrow of a - b: (a > b) ? 1 : 0, strictly greater (41_alu.md R130; with the operands exchanged R132). -/
def notBorrowFlag (a b : Byte) : Byte := flagByte (decide (a.toNat > b.toNat))

/-- The bit a right shift drops: a & 1 (41_alu.md R131). -/
def lowBitFlag (a : Byte) : Byte := a &&& 1

/-- The bit a left shift drops: a >> 7 (41_alu.md R133). -/
def highBitFlag (a : Byte) : Byte := a >>> 7

/-- Collision: 1 if a set pixel was turned off (43_display.md R162, R164). -/
def collisionFlag (hit : Bool) : Byte := flagByte hit

end Sys2Proof.Machine
end

