-- ==== Sys2Proof/Syntax.lean ====
section
/-! DEFINITION. The instructions of the CORE: one constructor per row of spec/opcode_table.json (30_encoding.md R75, 34 rows).
Register indices, immediates and addresses have the width of their field (R72), so none can be out of range (10_state.md R23). -/

namespace Sys2Proof

/-- The 34 instructions (30_encoding.md R75). -/
inductive Instr where
  /-- 00E0 CLS (43_display.md R161) -/
  | cls
  /-- 00EE RET (40_flow.md R100) -/
  | ret
  /-- 1nnn JP addr (40_flow.md R101) -/
  | jp (addr : Addr)
  /-- 2nnn CALL addr (40_flow.md R102) -/
  | call (addr : Addr)
  /-- 3xkk SE Vx, kk (40_flow.md R103) -/
  | seImm (x : Nibble) (kk : Byte)
  /-- 4xkk SNE Vx, kk (40_flow.md R104) -/
  | sneImm (x : Nibble) (kk : Byte)
  /-- 5xy0 SE Vx, Vy (40_flow.md R105) -/
  | seReg (x y : Nibble)
  /-- 6xkk LD Vx, kk (41_alu.md R123) -/
  | ldImm (x : Nibble) (kk : Byte)
  /-- 7xkk ADD Vx, kk (41_alu.md R124) -/
  | addImm (x : Nibble) (kk : Byte)
  /-- 8xy0 LD Vx, Vy (41_alu.md R125) -/
  | ldReg (x y : Nibble)
  /-- 8xy1 OR Vx, Vy (41_alu.md R126) -/
  | orReg (x y : Nibble)
  /-- 8xy2 AND Vx, Vy (41_alu.md R127) -/
  | andReg (x y : Nibble)
  /-- 8xy3 XOR Vx, Vy (41_alu.md R128) -/
  | xorReg (x y : Nibble)
  /-- 8xy4 ADD Vx, Vy (41_alu.md R129) -/
  | addReg (x y : Nibble)
  /-- 8xy5 SUB Vx, Vy (41_alu.md R130) -/
  | subReg (x y : Nibble)
  /-- 8xy6 SHR Vx, Vy (41_alu.md R131); y is encoded and ignored (30_encoding.md R78) -/
  | shr (x y : Nibble)
  /-- 8xy7 SUBN Vx, Vy (41_alu.md R132) -/
  | subnReg (x y : Nibble)
  /-- 8xyE SHL Vx, Vy (41_alu.md R133); y is encoded and ignored (30_encoding.md R78) -/
  | shl (x y : Nibble)
  /-- 9xy0 SNE Vx, Vy (40_flow.md R106) -/
  | sneReg (x y : Nibble)
  /-- Annn LD I, addr (42_index_memory.md R141) -/
  | ldI (addr : Addr)
  /-- Bnnn JP V0, addr (40_flow.md R107) -/
  | jpV0 (addr : Addr)
  /-- Cxkk RND Vx, kk (41_alu.md R134) -/
  | rnd (x : Nibble) (kk : Byte)
  /-- Dxyn DRW Vx, Vy, n (43_display.md R162) -/
  | drw (x y n : Nibble)
  /-- Ex9E SKP Vx (44_keys_timers.md R181) -/
  | skp (x : Nibble)
  /-- ExA1 SKNP Vx (44_keys_timers.md R182) -/
  | sknp (x : Nibble)
  /-- Fx07 LD Vx, DT (44_keys_timers.md R183) -/
  | ldVxDt (x : Nibble)
  /-- Fx0A LD Vx, K (44_keys_timers.md R184) -/
  | ldVxK (x : Nibble)
  /-- Fx15 LD DT, Vx (44_keys_timers.md R185) -/
  | ldDtVx (x : Nibble)
  /-- Fx18 LD ST, Vx (44_keys_timers.md R186) -/
  | ldStVx (x : Nibble)
  /-- Fx1E ADD I, Vx (42_index_memory.md R142) -/
  | addI (x : Nibble)
  /-- Fx29 LD F, Vx (42_index_memory.md R143) -/
  | ldF (x : Nibble)
  /-- Fx33 LD B, Vx (42_index_memory.md R144) -/
  | ldB (x : Nibble)
  /-- Fx55 LD [I], Vx (42_index_memory.md R145) -/
  | stRegs (x : Nibble)
  /-- Fx65 LD Vx, [I] (42_index_memory.md R146) -/
  | ldRegs (x : Nibble)
  deriving DecidableEq, Repr

end Sys2Proof
end

