-- ==== Sys2Proof/Decode.lean ====
section
/-! DEFINITION. Decoding and encoding (spec 30_encoding.md R70 to R78): the fields of an instruction word, the dispatch on the top
nibble and then on the sub-field, rejection by name, the encoder, and the opcode table as data. -/

namespace Sys2Proof

/-- Field op = w[15:12] (R72). -/
def opOf (w : Word) : Nibble := w.extractLsb' 12 4
/-- Field x = w[11:8] (R72). -/
def xOf (w : Word) : Nibble := w.extractLsb' 8 4
/-- Field y = w[7:4] (R72). -/
def yOf (w : Word) : Nibble := w.extractLsb' 4 4
/-- Field n = w[3:0] (R72). -/
def nOf (w : Word) : Nibble := w.extractLsb' 0 4
/-- Field kk = w[7:0] (R72). -/
def kkOf (w : Word) : Byte := w.extractLsb' 0 8
/-- Field addr = w[11:0] (R72). -/
def addrOf (w : Word) : Addr := w.extractLsb' 0 12

/-- Why a word is not an instruction. -/
inductive Reject where
  /-- The word matches no row of the opcode table: "an invalid instruction condition" (R76). -/
  | invalid (w : Word)
  /-- Fewer than two bytes were given; an instruction is always two (R70). -/
  | tooShort
  deriving DecidableEq, Repr

/-- Family 0: only 00E0 and 00EE (R75, R76, C1). -/
def decode0 (w : Word) : Except Reject Instr :=
  if w = 0x00E0 then .ok .cls
  else if w = 0x00EE then .ok .ret
  else .error (.invalid w)

/-- Family 5: n must be 0 (R75, R76). -/
def decode5 (w : Word) : Except Reject Instr :=
  if nOf w = 0 then .ok (.seReg (xOf w) (yOf w)) else .error (.invalid w)

/-- Family 8: the sub-opcode is n (R75, R76). -/
def decode8 (w : Word) : Except Reject Instr :=
  match (nOf w).toNat with
  | 0x0 => .ok (.ldReg (xOf w) (yOf w))
  | 0x1 => .ok (.orReg (xOf w) (yOf w))
  | 0x2 => .ok (.andReg (xOf w) (yOf w))
  | 0x3 => .ok (.xorReg (xOf w) (yOf w))
  | 0x4 => .ok (.addReg (xOf w) (yOf w))
  | 0x5 => .ok (.subReg (xOf w) (yOf w))
  | 0x6 => .ok (.shr (xOf w) (yOf w))
  | 0x7 => .ok (.subnReg (xOf w) (yOf w))
  | 0xE => .ok (.shl (xOf w) (yOf w))
  | _ => .error (.invalid w)

/-- Family 9: n must be 0 (R75, R76). -/
def decode9 (w : Word) : Except Reject Instr :=
  if nOf w = 0 then .ok (.sneReg (xOf w) (yOf w)) else .error (.invalid w)

/-- Family E: the sub-opcode is kk (R75, R76). -/
def decodeE (w : Word) : Except Reject Instr :=
  match (kkOf w).toNat with
  | 0x9E => .ok (.skp (xOf w))
  | 0xA1 => .ok (.sknp (xOf w))
  | _ => .error (.invalid w)

/-- Family F: the sub-opcode is kk (R75, R76). -/
def decodeF (w : Word) : Except Reject Instr :=
  match (kkOf w).toNat with
  | 0x07 => .ok (.ldVxDt (xOf w))
  | 0x0A => .ok (.ldVxK (xOf w))
  | 0x15 => .ok (.ldDtVx (xOf w))
  | 0x18 => .ok (.ldStVx (xOf w))
  | 0x1E => .ok (.addI (xOf w))
  | 0x29 => .ok (.ldF (xOf w))
  | 0x33 => .ok (.ldB (xOf w))
  | 0x55 => .ok (.stRegs (xOf w))
  | 0x65 => .ok (.ldRegs (xOf w))
  | _ => .error (.invalid w)

/-- Dispatch: "a direct jump table indexed by the top nibble to one of 16 handlers" (R75). -/
def decodeWord (w : Word) : Except Reject Instr :=
  match (opOf w).toNat with
  | 0x0 => decode0 w
  | 0x1 => .ok (.jp (addrOf w))
  | 0x2 => .ok (.call (addrOf w))
  | 0x3 => .ok (.seImm (xOf w) (kkOf w))
  | 0x4 => .ok (.sneImm (xOf w) (kkOf w))
  | 0x5 => decode5 w
  | 0x6 => .ok (.ldImm (xOf w) (kkOf w))
  | 0x7 => .ok (.addImm (xOf w) (kkOf w))
  | 0x8 => decode8 w
  | 0x9 => decode9 w
  | 0xA => .ok (.ldI (addrOf w))
  | 0xB => .ok (.jpV0 (addrOf w))
  | 0xC => .ok (.rnd (xOf w) (kkOf w))
  | 0xD => .ok (.drw (xOf w) (yOf w) (nOf w))
  | 0xE => decodeE w
  | 0xF => decodeF w
  | _ => .error (.invalid w)

/-- An instruction word from its two bytes, the first being bits 15:8 (R71, 20_memory.md R54). -/
def wordOfBytes (hi lo : Byte) : Word := hi ++ lo

/-- The byte of a word at the lower address: bits 15:8 (R71). -/
def hiByte (w : Word) : Byte := w.extractLsb' 8 8

/-- The byte of a word at the higher address: bits 7:0 (R71). -/
def loByte (w : Word) : Byte := w.extractLsb' 0 8

/-- The decoder on bytes: "always consumes exactly 2 bytes" (R70); the rest of the bytes comes back. -/
def decodeBytes : List Byte → Except Reject (Instr × List Byte)
  | hi :: lo :: rest =>
    match decodeWord (wordOfBytes hi lo) with
    | .ok i => .ok (i, rest)
    | .error e => .error e
  | _ => .error .tooShort

/-- Format A: op, addr (R73). -/
def formatA (op : Nibble) (addr : Addr) : Word := op ++ addr
/-- Formats XK and XS: op, x, kk (R73). -/
def formatXK (op x : Nibble) (kk : Byte) : Word := op ++ x ++ kk
/-- Formats XYS and XYN: op, x, y, n (R73). -/
def formatXYN (op x y n : Nibble) : Word := op ++ x ++ y ++ n

/-- The word of an instruction, from the encoding line of its rule (R75). -/
def encode : Instr → Word
  | .cls => 0x00E0
  | .ret => 0x00EE
  | .jp addr => formatA 0x1 addr
  | .call addr => formatA 0x2 addr
  | .seImm x kk => formatXK 0x3 x kk
  | .sneImm x kk => formatXK 0x4 x kk
  | .seReg x y => formatXYN 0x5 x y 0x0
  | .ldImm x kk => formatXK 0x6 x kk
  | .addImm x kk => formatXK 0x7 x kk
  | .ldReg x y => formatXYN 0x8 x y 0x0
  | .orReg x y => formatXYN 0x8 x y 0x1
  | .andReg x y => formatXYN 0x8 x y 0x2
  | .xorReg x y => formatXYN 0x8 x y 0x3
  | .addReg x y => formatXYN 0x8 x y 0x4
  | .subReg x y => formatXYN 0x8 x y 0x5
  | .shr x y => formatXYN 0x8 x y 0x6
  | .subnReg x y => formatXYN 0x8 x y 0x7
  | .shl x y => formatXYN 0x8 x y 0xE
  | .sneReg x y => formatXYN 0x9 x y 0x0
  | .ldI addr => formatA 0xA addr
  | .jpV0 addr => formatA 0xB addr
  | .rnd x kk => formatXK 0xC x kk
  | .drw x y n => formatXYN 0xD x y n
  | .skp x => formatXK 0xE x 0x9E
  | .sknp x => formatXK 0xE x 0xA1
  | .ldVxDt x => formatXK 0xF x 0x07
  | .ldVxK x => formatXK 0xF x 0x0A
  | .ldDtVx x => formatXK 0xF x 0x15
  | .ldStVx x => formatXK 0xF x 0x18
  | .addI x => formatXK 0xF x 0x1E
  | .ldF x => formatXK 0xF x 0x29
  | .ldB x => formatXK 0xF x 0x33
  | .stRegs x => formatXK 0xF x 0x55
  | .ldRegs x => formatXK 0xF x 0x65

/-- The two bytes of an instruction as memory holds them, big-endian (R71, 20_memory.md R54). -/
def encodeBytes (i : Instr) : List Byte := [hiByte (encode i), loByte (encode i)]

/-- The word that the host's bit numbering means: bit 0 is the least significant bit of the (only) word, and every bit from
nbits up is 0. -/
def tableWord (nbits w : Nat) : Word := BitVec.ofNat 16 (w % 2 ^ nbits)

/-- What the decoder reads from an instruction whose bits are w, numbered as spec/opcode_table.json numbers them: the word laid
out big-endian and given to `decodeBytes`. -/
def decodeTableWord (nbits w : Nat) : Option Instr :=
  match decodeBytes [hiByte (tableWord nbits w), loByte (tableWord nbits w)] with
  | .ok (i, _) => some i
  | .error _ => none

/-- One row of the opcode table of R75: the word w is this instruction when `w &&& mask = match`. -/
structure OpcodeRow where
  mnemonic : String
  mask : Word
  matchBits : Word
  deriving DecidableEq, Repr

/-- The opcode table of R75 (spec/opcode_table.json), rows 0nnn to 7xkk. -/
def opcodeRowsLow : List OpcodeRow :=
  [ ⟨"CLS", 0xFFFF, 0x00E0⟩,
    ⟨"RET", 0xFFFF, 0x00EE⟩,
    ⟨"JP_addr", 0xF000, 0x1000⟩,
    ⟨"CALL_addr", 0xF000, 0x2000⟩,
    ⟨"SE_Vx__kk", 0xF000, 0x3000⟩,
    ⟨"SNE_Vx__kk", 0xF000, 0x4000⟩,
    ⟨"SE_Vx__Vy", 0xF00F, 0x5000⟩,
    ⟨"LD_Vx__kk", 0xF000, 0x6000⟩,
    ⟨"ADD_Vx__kk", 0xF000, 0x7000⟩ ]

/-- The opcode table of R75, rows 8xyn. -/
def opcodeRowsAlu : List OpcodeRow :=
  [ ⟨"LD_Vx__Vy", 0xF00F, 0x8000⟩,
    ⟨"OR_Vx__Vy", 0xF00F, 0x8001⟩,
    ⟨"AND_Vx__Vy", 0xF00F, 0x8002⟩,
    ⟨"XOR_Vx__Vy", 0xF00F, 0x8003⟩,
    ⟨"ADD_Vx__Vy", 0xF00F, 0x8004⟩,
    ⟨"SUB_Vx__Vy", 0xF00F, 0x8005⟩,
    ⟨"SHR_Vx__Vy", 0xF00F, 0x8006⟩,
    ⟨"SUBN_Vx__Vy", 0xF00F, 0x8007⟩,
    ⟨"SHL_Vx__Vy", 0xF00F, 0x800E⟩ ]

/-- The opcode table of R75, rows 9xy0 to ExA1. -/
def opcodeRowsMid : List OpcodeRow :=
  [ ⟨"SNE_Vx__Vy", 0xF00F, 0x9000⟩,
    ⟨"LD_I__addr", 0xF000, 0xA000⟩,
    ⟨"JP_V0__addr", 0xF000, 0xB000⟩,
    ⟨"RND_Vx__kk", 0xF000, 0xC000⟩,
    ⟨"DRW_Vx__Vy__n", 0xF000, 0xD000⟩,
    ⟨"SKP_Vx", 0xF0FF, 0xE09E⟩,
    ⟨"SKNP_Vx", 0xF0FF, 0xE0A1⟩ ]

/-- The opcode table of R75, rows Fxkk. -/
def opcodeRowsF : List OpcodeRow :=
  [ ⟨"LD_Vx__DT", 0xF0FF, 0xF007⟩,
    ⟨"LD_Vx__K", 0xF0FF, 0xF00A⟩,
    ⟨"LD_DT__Vx", 0xF0FF, 0xF015⟩,
    ⟨"LD_ST__Vx", 0xF0FF, 0xF018⟩,
    ⟨"ADD_I__Vx", 0xF0FF, 0xF01E⟩,
    ⟨"LD_F__Vx", 0xF0FF, 0xF029⟩,
    ⟨"LD_B__Vx", 0xF0FF, 0xF033⟩,
    ⟨"LD__I___Vx", 0xF0FF, 0xF055⟩,
    ⟨"LD_Vx___I", 0xF0FF, 0xF065⟩ ]

/-- The whole opcode table, 34 rows (R75). -/
def opcodeTable : List OpcodeRow := opcodeRowsLow ++ opcodeRowsAlu ++ opcodeRowsMid ++ opcodeRowsF

/-- The table's mnemonic of an instruction (R75, R80). -/
def mnemonicOf : Instr → String
  | .cls => "CLS"
  | .ret => "RET"
  | .jp _ => "JP_addr"
  | .call _ => "CALL_addr"
  | .seImm _ _ => "SE_Vx__kk"
  | .sneImm _ _ => "SNE_Vx__kk"
  | .seReg _ _ => "SE_Vx__Vy"
  | .ldImm _ _ => "LD_Vx__kk"
  | .addImm _ _ => "ADD_Vx__kk"
  | .ldReg _ _ => "LD_Vx__Vy"
  | .orReg _ _ => "OR_Vx__Vy"
  | .andReg _ _ => "AND_Vx__Vy"
  | .xorReg _ _ => "XOR_Vx__Vy"
  | .addReg _ _ => "ADD_Vx__Vy"
  | .subReg _ _ => "SUB_Vx__Vy"
  | .shr _ _ => "SHR_Vx__Vy"
  | .subnReg _ _ => "SUBN_Vx__Vy"
  | .shl _ _ => "SHL_Vx__Vy"
  | .sneReg _ _ => "SNE_Vx__Vy"
  | .ldI _ => "LD_I__addr"
  | .jpV0 _ => "JP_V0__addr"
  | .rnd _ _ => "RND_Vx__kk"
  | .drw _ _ _ => "DRW_Vx__Vy__n"
  | .skp _ => "SKP_Vx"
  | .sknp _ => "SKNP_Vx"
  | .ldVxDt _ => "LD_Vx__DT"
  | .ldVxK _ => "LD_Vx__K"
  | .ldDtVx _ => "LD_DT__Vx"
  | .ldStVx _ => "LD_ST__Vx"
  | .addI _ => "ADD_I__Vx"
  | .ldF _ => "LD_F__Vx"
  | .ldB _ => "LD_B__Vx"
  | .stRegs _ => "LD__I___Vx"
  | .ldRegs _ => "LD_Vx___I"

/-- A hexadecimal digit. -/
def hexDigit (d : Nibble) : String :=
  match d.toNat with
  | 0 => "0" | 1 => "1" | 2 => "2" | 3 => "3" | 4 => "4" | 5 => "5" | 6 => "6" | 7 => "7"
  | 8 => "8" | 9 => "9" | 10 => "A" | 11 => "B" | 12 => "C" | 13 => "D" | 14 => "E" | _ => "F"

/-- A register operand V0 to VF in the assembler syntax (R81). -/
def asmReg (x : Nibble) : String := "V" ++ hexDigit x

/-- An 8-bit immediate in the assembler syntax (R81). -/
def asmByte (kk : Byte) : String := "0x" ++ hexDigit (kk.extractLsb' 4 4) ++ hexDigit (kk.extractLsb' 0 4)

/-- A 12-bit address in the assembler syntax (R81). -/
def asmAddr (a : Addr) : String :=
  "0x" ++ hexDigit (a.extractLsb' 8 4) ++ hexDigit (a.extractLsb' 4 4) ++ hexDigit (a.extractLsb' 0 4)

/-- The line of assembler text that stands for an instruction in the spec's notation (R80, R81, D24). -/
def asm : Instr → String
  | .cls => "CLS"
  | .ret => "RET"
  | .jp a => "JP " ++ asmAddr a
  | .call a => "CALL " ++ asmAddr a
  | .seImm x kk => "SE " ++ asmReg x ++ ", " ++ asmByte kk
  | .sneImm x kk => "SNE " ++ asmReg x ++ ", " ++ asmByte kk
  | .seReg x y => "SE " ++ asmReg x ++ ", " ++ asmReg y
  | .ldImm x kk => "LD " ++ asmReg x ++ ", " ++ asmByte kk
  | .addImm x kk => "ADD " ++ asmReg x ++ ", " ++ asmByte kk
  | .ldReg x y => "LD " ++ asmReg x ++ ", " ++ asmReg y
  | .orReg x y => "OR " ++ asmReg x ++ ", " ++ asmReg y
  | .andReg x y => "AND " ++ asmReg x ++ ", " ++ asmReg y
  | .xorReg x y => "XOR " ++ asmReg x ++ ", " ++ asmReg y
  | .addReg x y => "ADD " ++ asmReg x ++ ", " ++ asmReg y
  | .subReg x y => "SUB " ++ asmReg x ++ ", " ++ asmReg y
  | .shr x y => "SHR " ++ asmReg x ++ ", " ++ asmReg y
  | .subnReg x y => "SUBN " ++ asmReg x ++ ", " ++ asmReg y
  | .shl x y => "SHL " ++ asmReg x ++ ", " ++ asmReg y
  | .sneReg x y => "SNE " ++ asmReg x ++ ", " ++ asmReg y
  | .ldI a => "LD I, " ++ asmAddr a
  | .jpV0 a => "JP V0, " ++ asmAddr a
  | .rnd x kk => "RND " ++ asmReg x ++ ", " ++ asmByte kk
  | .drw x y n => "DRW " ++ asmReg x ++ ", " ++ asmReg y ++ ", 0x" ++ hexDigit n
  | .skp x => "SKP " ++ asmReg x
  | .sknp x => "SKNP " ++ asmReg x
  | .ldVxDt x => "LD " ++ asmReg x ++ ", DT"
  | .ldVxK x => "LD " ++ asmReg x ++ ", K"
  | .ldDtVx x => "LD DT, " ++ asmReg x
  | .ldStVx x => "LD ST, " ++ asmReg x
  | .addI x => "ADD I, " ++ asmReg x
  | .ldF x => "LD F, " ++ asmReg x
  | .ldB x => "LD B, " ++ asmReg x
  | .stRegs x => "LD [I], " ++ asmReg x
  | .ldRegs x => "LD " ++ asmReg x ++ ", [I]"

end Sys2Proof
end

