-- ==== Sys2Proof/Config.lean ====
section
/-! DEFINITION. The fixed parameters of the CORE (spec 00_scope.md R5) and its one free value, the random byte of CXKK.
INSTRS_PER_TICK is OPEN in the spec and is an argument of `Machine.tick`. FONT_BASE and FONT are the parameters `Params`; the spec's
defaults of them stand in Machine/Font.lean. -/

namespace Sys2Proof.Config

/-- MEM_SIZE: 4096 bytes, addresses 0x000 to 0xFFF (R5, 20_memory.md R50). -/
def memSize : Nat := 4096

/-- PC_RESET: the program counter after reset (R5, 10_state.md R24). -/
def pcReset : Word := 0x200

/-- STACK_DEPTH: 16 entries, the value of SP that means a full stack (R5, 10_state.md R26). -/
def stackDepth : Nat := 16

/-- LOAD_BASE: where a program image is placed (R5, 70_reset_and_hazards.md R242). -/
def loadBase : Word := 0x200

/-- MAX_PROGRAM: the longest image the loader takes, 4096 - 512 bytes (R5, 70_reset_and_hazards.md R242). -/
def maxProgram : Nat := 3584

/-- The end of the RESERVED region 0x000 to 0x1FF, which nothing protects (R5, 20_memory.md R57, R58). -/
def reservedEnd : Nat := 0x200

/-- TIMER_RATE: the host's duty is to call tick at 60 Hz (R5, 60_exceptions.md R211). No rule depends on it. -/
def timerRateHz : Nat := 60

/-- FONT_BASE and FONT, the parameters a machine is constructed with (R5, 93_implementation_defined.md row 12: "a named argument of the
model"). They are parameters of the step relation and no architectural state (10_state.md R38): a machine carries them in the field
`State.params`, and nothing writes it (log 2, log 3). -/
structure Params where
  /-- FONT_BASE. The whole font lies in the reserved region 0x000 to 0x1FF (20_memory.md R57), so the last base is 0x1FF - 79 = 432. -/
  fontBase : Fin 433
  /-- FONT, 16 glyphs of 5 bytes in memory order (10_state.md R37). -/
  font : Vector Byte 80
  deriving DecidableEq, Repr

/-- draw8(): the bytes CXKK draws, a FREE VALUE (41_alu.md R134, D15; log 1).
The n-th draw of a machine is `draw8 n` for the value n of the model's own counter `State.draws`.
It has no body: nothing can evaluate it, so a claim holds for every byte drawn. -/
opaque draw8 : Nat → Byte

end Sys2Proof.Config
end

