-- ==== Sys2Proof/Machine/Font.lean ====
section
/-! DEFINITION. The spec's defaults of the parameters FONT_BASE and FONT (spec 00_scope.md R5, 10_state.md R37), and what a machine's own
parameters give: the font's bytes and its address as a word. They stand here and not in Config.lean so that they can be mended. -/

namespace Sys2Proof.Machine

/-- The default of FONT_BASE, the address of glyph 0: DESIGN CHOICE of the spec (D9, log 2). -/
def defaultFontBase : Fin 433 := 0x000

/-- The default of FONT, glyphs 0 to 7, five bytes each, top row first (10_state.md R37): PRESUMED (D10, log 3). -/
def fontGlyphs0to7 : List (List Byte) :=
  [ [0xF0, 0x90, 0x90, 0x90, 0xF0],
    [0x20, 0x60, 0x20, 0x20, 0x70],
    [0xF0, 0x10, 0xF0, 0x80, 0xF0],
    [0xF0, 0x10, 0xF0, 0x10, 0xF0],
    [0x90, 0x90, 0xF0, 0x10, 0x10],
    [0xF0, 0x80, 0xF0, 0x10, 0xF0],
    [0xF0, 0x80, 0xF0, 0x90, 0xF0],
    [0xF0, 0x10, 0x20, 0x40, 0x40] ]

/-- The default of FONT, glyphs 8 to F (10_state.md R37): PRESUMED (D10, log 3). -/
def fontGlyphs8toF : List (List Byte) :=
  [ [0xF0, 0x90, 0xF0, 0x90, 0xF0],
    [0xF0, 0x90, 0xF0, 0x10, 0xF0],
    [0xF0, 0x90, 0xF0, 0x90, 0x90],
    [0xE0, 0x90, 0xE0, 0x90, 0xE0],
    [0xF0, 0x80, 0x80, 0x80, 0xF0],
    [0xE0, 0x90, 0x90, 0x90, 0xE0],
    [0xF0, 0x80, 0xF0, 0x80, 0xF0],
    [0xF0, 0x80, 0xF0, 0x80, 0x80] ]

/-- The 80 default font bytes in memory order (10_state.md R37). -/
def defaultFont : List Byte := (fontGlyphs0to7 ++ fontGlyphs8toF).flatten

/-- The spec's defaults of FONT_BASE and FONT. -/
def defaultParams : Config.Params := { fontBase := defaultFontBase, font := ⟨defaultFont.toArray, by decide⟩ }

/-- FONT_BASE as the 16-bit value FX29 adds to (42_index_memory.md R143). -/
def fontBaseWord (p : Config.Params) : Word := BitVec.ofNat 16 p.fontBase.val

/-- What reset leaves at an address: the FONT byte inside FONT_BASE .. FONT_BASE + 79, 0 elsewhere (10_state.md R31, R36). -/
def resetByte (p : Config.Params) (a : Nat) : Byte :=
  if a < p.fontBase.val then 0
  else if h : a - p.fontBase.val < 80 then p.font[a - p.fontBase.val] else 0

end Sys2Proof.Machine
end

