-- ==== Sys2Proof/Machine/State.lean ====
section
/-! DEFINITION. The whole architectural state of the CORE as plain data (spec 10_state.md R20 to R38), the reasons a step can stop,
and the state after reset (R36). -/

namespace Sys2Proof.Machine

/-- The three fault kinds (60_exceptions.md R200). -/
inductive FaultKind where
  /-- An invalid word was executed (R201). -/
  | invalidInstruction
  /-- A call with a full stack (R202). -/
  | stackOverflow
  /-- A return with an empty stack (R203). -/
  | stackUnderflow
  deriving DecidableEq, Repr

/-- The fault record: kind, the address P of the faulting instruction, its word (10_state.md R33). -/
structure FaultRecord where
  kind : FaultKind
  pc : Word
  opcode : Word
  deriving DecidableEq, Repr

/-- The architectural state (10_state.md R38), the model's own counter `draws` (log 1), and the parameters the machine was constructed
with, which R38 keeps apart from the state and which nothing writes (log 2, log 3). -/
structure State where
  /-- V0..VF, 16 general registers of 8 bits; VF is V[15] (R20, R21). -/
  v : Vector Byte 16
  /-- The address register I (R25). -/
  i : Word
  /-- The program counter, between steps the address of the next instruction to fetch (R24). -/
  pc : Word
  /-- The stack pointer: how many stack entries are occupied, legal values 0 to 16 (R26). -/
  sp : Byte
  /-- The return stack, 16 entries, apart from memory (R27). -/
  stack : Vector Word 16
  /-- The delay timer (R28). -/
  dt : Byte
  /-- The sound timer (R28). -/
  st : Byte
  /-- The key matrix, true is pressed; written by the host only (R29). -/
  key : Vector Bool 16
  /-- The output grid, grid[px][py] with 64 columns px of 32 rows py (R30). -/
  grid : Vector (Vector Bool 32) 64
  /-- Memory (R31): the bytes that differ from the reset contents, sorted by address (Machine/Memory.lean, log 28). -/
  mem : List Host.Cell
  /-- wait_key: an FX0A at PC is waiting for a key (R32). -/
  waitKey : Bool
  /-- The fault record, none while the machine runs (R33). -/
  fault : Option FaultRecord
  /-- THE MODEL'S OWN field: how many free bytes CXKK has drawn; the next one is `Config.draw8 draws` (log 1). -/
  draws : Nat
  /-- The parameters FONT_BASE and FONT of the machine (R38: "parameters of the step relation"). No instruction and no host call writes
  them; they stand here because the step takes no argument but the state (log 2, log 3). -/
  params : Config.Params
  deriving DecidableEq, Repr

/-- Why the machine does not step. Neither constructor is a fault of the spec: those are records in `State.fault`. -/
inductive Fault where
  /-- `step` of a machine that already holds a fault record: "no step is defined while fault ≠ none" (60_exceptions.md R204).
  Raised by `step`. Safe: it is the spec's own stop (log 15). -/
  | halted (record : FaultRecord)
  /-- CALL or RET with SP above 16, a state no run reaches (10_state.md R26, R39) and to which no rule gives a meaning.
  Raised by `execCall` and `execRet`. Safe: the machine stops where the spec says nothing (log 24). -/
  | spOutOfRange (sp : Byte)
  deriving DecidableEq, Repr

/-- Why the model gives no meaning. -/
inductive Refusal where
  /-- An instruction without a meaning yet, by its mnemonic. Raised by `exec`; no arm does. Safe. -/
  | notModelled (mnemonic : String)
  /-- A host get(x, y) outside [0,64) x [0,32): "a model refuses it" (43_display.md R160, D29).
  Raised by `gridGet`. Safe (log 22). -/
  | gridOutOfRange (x y : Int)
  deriving DecidableEq, Repr

/-- The state after reset and at construction of a machine with the given FONT_BASE and FONT (10_state.md R36, 70_reset_and_hazards.md
R240, R241). PC, SP and the presence of the font are the spec's from its source; the other values are its decision D19 (log 4). Memory
lists nothing: it reads as the reset contents. -/
def State.resetWith (params : Config.Params) : State where
  v := Vector.replicate 16 0
  i := 0
  pc := Config.pcReset
  sp := 0
  stack := Vector.replicate 16 0
  dt := 0
  st := 0
  key := Vector.replicate 16 false
  grid := Vector.replicate 64 (Vector.replicate 32 false)
  mem := []
  waitKey := false
  fault := none
  draws := 0
  params := params

/-- The machine right after reset, with the spec's defaults of FONT_BASE and FONT (D9, D10; log 2, log 3). -/
def State.reset : State := State.resetWith defaultParams

end Sys2Proof.Machine
end

