-- ==== Sys2Proof/Machine/Memory.lean ====
section
/-! DEFINITION. The 4096 bytes of memory (spec 20_memory.md R50 to R52, 10_state.md R31) as the sorted list of the bytes that differ
from the reset contents, which are those of the machine's parameters: what an unlisted address reads as, one read, one write, the canonical form. Keys are addresses already
reduced by mask12 (Ops.lean). -/

namespace Sys2Proof.Machine

/-- The listed bytes, (address, byte). -/
abbrev Memory := List Host.Cell

/-- What an unlisted address reads as: the reset contents, the FONT byte inside the font region and 0 elsewhere
(10_state.md R31, R36; log 28). -/
def Memory.unlisted (p : Config.Params) (a : Nat) : Byte := resetByte p a

/-- The byte at an address (20_memory.md R52). -/
def Memory.read (p : Config.Params) : Memory → Nat → Byte
  | [], a => Memory.unlisted p a
  | (b, u) :: m, a => if a = b then u else Memory.read p m a

/-- List a byte at its place in the order, in place of any byte listed there. -/
def Memory.insert : Memory → Nat → Byte → Memory
  | [], a, u => [(a, u)]
  | (b, w) :: m, a, u =>
    if a < b then (a, u) :: (b, w) :: m
    else if a = b then (a, u) :: m
    else (b, w) :: Memory.insert m a u

/-- Take an address off the list, wherever it is listed. -/
def Memory.erase : Memory → Nat → Memory
  | [], _ => []
  | (b, w) :: m, a => if a = b then Memory.erase m a else (b, w) :: Memory.erase m a

/-- Write one byte; "no other byte changes" (20_memory.md R52). Writing what an unlisted address reads as takes it off the list. -/
def Memory.write (p : Config.Params) (m : Memory) (a : Nat) (u : Byte) : Memory :=
  if u = Memory.unlisted p a then Memory.erase m a else Memory.insert m a u

/-- Every listed address lies above the bound, the addresses rise strictly and stay below 4096, and no listed byte is what its
address reads as anyway. -/
def Memory.wfFrom (p : Config.Params) : Nat → Memory → Bool
  | _, [] => true
  | lo, (a, u) :: m =>
    decide (lo ≤ a) && decide (a < Config.memSize) && decide (u ≠ Memory.unlisted p a) && Memory.wfFrom p (a + 1) m

/-- The canonical form: equal memories are equal lists. -/
def Memory.wf (p : Config.Params) (m : Memory) : Bool := Memory.wfFrom p 0 m

end Sys2Proof.Machine
end

