-- ==== Sys2Proof/Machine/Ops.lean ====
section
/-! DEFINITION. The named operations the meanings share: address reduction, memory access, fetch, the program counter's ways to move,
the return stack, the wait, and taking a fault (spec 20_memory.md R51 to R54, 30_encoding.md R71, R82, R83, 60_exceptions.md R204).
There is no return from a fault (60_exceptions.md R205): only the host's reset and load clear the record (Interface.lean). -/

namespace Sys2Proof.Machine

/-- mask12(a) = a & 0xFFF (20_memory.md R51, D1; log 5). -/
def mask12 (a : Word) : Word := a &&& 0x0FFF

/-- EA(k) = mask12(I + k), each byte's address reduced separately (42_index_memory.md R140). -/
def ea (base : Word) (k : Nat) : Word := mask12 (base + BitVec.ofNat 16 k)

/-- MemRead(a, 1) (20_memory.md R52). -/
def State.memRead (s : State) (a : Word) : Byte := Memory.read s.params s.mem (mask12 a).toNat

/-- MemWrite(a, 1, u) (20_memory.md R52). -/
def State.memWrite (s : State) (a : Word) (u : Byte) : State :=
  { s with mem := Memory.write s.params s.mem (mask12 a).toNat u }

/-- Write a sequence of bytes at EA(k), EA(k+1), ... in increasing order (20_memory.md R53, 42_index_memory.md R140). -/
def State.storeFrom (s : State) (base : Word) : Nat → List Byte → State
  | _, [] => s
  | k, u :: us => State.storeFrom (s.memWrite (ea base k) u) base (k + 1) us

/-- Fetch: the word at P, its first byte being bits 15:8 (30_encoding.md R71, 20_memory.md R54, R56). -/
def State.fetch (s : State) : Word := wordOfBytes (s.memRead s.pc) (s.memRead (s.pc + 1))

/-- PC <- t (30_encoding.md R82, outcome Goto). -/
def State.goto (s : State) (t : Word) : State := { s with pc := t }

/-- PC <- (P + 2) mod 65536 (30_encoding.md R83, outcome Next; D2, log 6). -/
def State.advance (s : State) : State := s.goto (s.pc + 2)

/-- A skip: P + 4 if its condition holds, P + 2 if not, both mod 65536 (40_flow.md R108, D30; log 6). -/
def State.skipIf (s : State) (c : Bool) : State := s.goto (if c then s.pc + 4 else s.pc + 2)

/-- Outcome Wait: PC stays P and wait_key is set (30_encoding.md R82, 44_keys_timers.md R184). -/
def State.wait (s : State) : State := { s with waitKey := true }

/-- The code of a fault kind (60_exceptions.md R200, D18; log 17). -/
def faultCode : FaultKind → Nat
  | .invalidInstruction => 1
  | .stackOverflow => 2
  | .stackUnderflow => 3

/-- TAKING A FAULT: the record {kind, pc = P, opcode = w} is written, PC keeps P and nothing else is written
(60_exceptions.md R204, 30_encoding.md R82; log 15). -/
def State.raiseFault (s : State) (kind : FaultKind) (opcode : Word) : State :=
  { s with fault := some { kind := kind, pc := s.pc, opcode := opcode } }

/-- stack[SP] <- w ; SP <- SP + 1, with SP below 16 (40_flow.md R102). -/
def State.push (s : State) (w : Word) (h : s.sp.toNat < 16) : State :=
  { s with stack := s.stack.set s.sp.toNat w h, sp := s.sp + 1 }

/-- SP <- SP - 1 ; PC <- stack[SP], with SP in 1..16; the entry is left as it was (40_flow.md R100, D31; log 23). -/
def State.popGoto (s : State) (h : s.sp.toNat - 1 < 16) : State :=
  { s with sp := s.sp - 1, pc := s.stack[s.sp.toNat - 1] }

end Sys2Proof.Machine
end

