-- ==== Sys2Proof/Machine/Operands.lean ====
section
/-! DEFINITION. The operand forms of the CORE: a general register (10_state.md R20, R23), register ranges for FX55 and FX65
(42_index_memory.md R145, R146), the zero-extended immediates (30_encoding.md R74), the key a register names
(44_keys_timers.md R180), the lowest pressed key (R184), a glyph's address (42_index_memory.md R143), decimal digits (R144). -/

namespace Sys2Proof.Machine

/-- V[x] (10_state.md R20). -/
def State.readV (s : State) (x : Nibble) : Byte := s.v[x.toNat]

/-- V[x] <- u (10_state.md R20). -/
def State.writeV (s : State) (x : Nibble) (u : Byte) : State := { s with v := s.v.set x.toNat u }

/-- VF, the flag register (10_state.md R21). -/
def regVF : Nibble := 0xF

/-- V[x] <- result, then VF <- flag: the flag is written last (41_alu.md R122, D4; log 8). -/
def State.writeResultFlag (s : State) (x : Nibble) (result flag : Byte) : State :=
  (s.writeV x result).writeV regVF flag

/-- The values of V[0..x], x + 1 registers (42_index_memory.md R145). -/
def State.regsUpTo (s : State) (x : Nibble) : List Byte := s.v.toList.take (x.toNat + 1)

/-- V[k] <- MemRead(I + k, 1) for k = 0 .. count-1, in increasing order (42_index_memory.md R146). -/
def State.loadRegs (s : State) : Nat → State
  | 0 => s
  | k + 1 =>
    let t := State.loadRegs s k
    t.writeV (BitVec.ofNat 4 k) (t.memRead (ea s.i k))

/-- An address immediate as a 16-bit value: zext_16(addr) (30_encoding.md R74). -/
def zextAddr (addr : Addr) : Word := addr.setWidth 16

/-- A register value as a 16-bit value: zext_16(V[x]) (40_flow.md R107, 42_index_memory.md R142). -/
def zextByte (u : Byte) : Word := u.setWidth 16

/-- keyidx(v) = v & 0x0F, the low nibble (44_keys_timers.md R180, D11; log 12). -/
def keyIdx (u : Byte) : Nibble := u.extractLsb' 0 4

/-- key[k] (10_state.md R29). -/
def State.keyDown (s : State) (k : Nibble) : Bool := s.key[k.toNat]

/-- The lowest pressed index, none if no key is pressed: min { k | key[k] } (44_keys_timers.md R184, D12; log 13). -/
def State.lowestKey (s : State) : Option Nat := s.key.toList.findIdx? id

/-- The glyph address FONT_BASE + 5 * (u & 0x0F) (42_index_memory.md R143, D9; log 2). -/
def glyphAddr (p : Config.Params) (u : Byte) : Word := fontBaseWord p + 5 * zextByte (u &&& 0x0F)

/-- The decimal digits of a byte, hundreds, tens, ones (42_index_memory.md R144). -/
def decimalDigits (u : Byte) : List Byte :=
  [ BitVec.ofNat 8 (u.toNat / 100), BitVec.ofNat 8 (u.toNat / 10 % 10), BitVec.ofNat 8 (u.toNat % 10) ]

end Sys2Proof.Machine
end

