-- ==== Sys2Proof/Machine/Alu.lean ====
section
/-! DEFINITION. Register loads and arithmetic (spec 41_alu.md R120 to R134). Operands are read from the state on entry (R121, D5; log 9);
an instruction whose rule names no flag leaves VF alone unless VF is its destination (R122, D6, D34; log 10). -/

namespace Sys2Proof.Machine

/-- LD Vx, kk (R123). -/
def execLdImm (x : Nibble) (kk : Byte) (s : State) : Host.Outcome State Fault Refusal :=
  .next (s.writeV x kk).advance

/-- ADD Vx, kk (R124): modulo 256, no carry recorded. -/
def execAddImm (x : Nibble) (kk : Byte) (s : State) : Host.Outcome State Fault Refusal :=
  .next (s.writeV x (s.readV x + kk)).advance

/-- LD Vx, Vy (R125). -/
def execLdReg (x y : Nibble) (s : State) : Host.Outcome State Fault Refusal :=
  .next (s.writeV x (s.readV y)).advance

/-- OR Vx, Vy (R126). -/
def execOrReg (x y : Nibble) (s : State) : Host.Outcome State Fault Refusal :=
  .next (s.writeV x (s.readV x ||| s.readV y)).advance

/-- AND Vx, Vy (R127). -/
def execAndReg (x y : Nibble) (s : State) : Host.Outcome State Fault Refusal :=
  .next (s.writeV x (s.readV x &&& s.readV y)).advance

/-- XOR Vx, Vy (R128). -/
def execXorReg (x y : Nibble) (s : State) : Host.Outcome State Fault Refusal :=
  .next (s.writeV x (s.readV x ^^^ s.readV y)).advance

/-- ADD Vx, Vy (R129): sum mod 256, VF = carry. -/
def execAddReg (x y : Nibble) (s : State) : Host.Outcome State Fault Refusal :=
  let a := s.readV x
  let b := s.readV y
  .next (s.writeResultFlag x (a + b) (carryFlag a b)).advance

/-- SUB Vx, Vy (R130): (a - b) mod 256, VF = 1 exactly when a > b. -/
def execSubReg (x y : Nibble) (s : State) : Host.Outcome State Fault Refusal :=
  let a := s.readV x
  let b := s.readV y
  .next (s.writeResultFlag x (a - b) (notBorrowFlag a b)).advance

/-- SHR Vx, Vy (R131): the operand is V[x]; V[y] is neither read nor written. -/
def execShr (x _y : Nibble) (s : State) : Host.Outcome State Fault Refusal :=
  let a := s.readV x
  .next (s.writeResultFlag x (a >>> 1) (lowBitFlag a)).advance

/-- SUBN Vx, Vy (R132): (b - a) mod 256, VF = 1 exactly when b > a. -/
def execSubnReg (x y : Nibble) (s : State) : Host.Outcome State Fault Refusal :=
  let a := s.readV x
  let b := s.readV y
  .next (s.writeResultFlag x (b - a) (notBorrowFlag b a)).advance

/-- SHL Vx, Vy (R133): the operand is V[x]; V[y] is neither read nor written. -/
def execShl (x _y : Nibble) (s : State) : Host.Outcome State Fault Refusal :=
  let a := s.readV x
  .next (s.writeResultFlag x (a <<< 1) (highBitFlag a)).advance

/-- RND Vx, kk (R134): a fresh free byte AND kk (D15, log 1). -/
def execRnd (x : Nibble) (kk : Byte) (s : State) : Host.Outcome State Fault Refusal :=
  .next { (s.writeV x (Config.draw8 s.draws &&& kk)).advance with draws := s.draws + 1 }

end Sys2Proof.Machine
end

