-- ==== Sys2Proof/Machine/Display.lean ====
section
/-! DEFINITION. The output grid, clearing and drawing (spec 43_display.md R160 to R165). -/

namespace Sys2Proof.Machine

/-- 64 columns of 32 rows (10_state.md R30). -/
abbrev Grid := Vector (Vector Bool 32) 64

/-- get(x, y) with wrapped coordinates (R160). -/
def Grid.get (g : Grid) (px : Fin 64) (py : Fin 32) : Bool := g[px][py]

/-- set(x, y, value) with wrapped coordinates (R160). -/
def Grid.put (g : Grid) (px : Fin 64) (py : Fin 32) (b : Bool) : Grid := g.set px (g[px].set py b)

/-- clear(): all 2048 cells false (R160). -/
def Grid.clear : Grid := Vector.replicate 64 (Vector.replicate 32 false)

/-- A draw in progress: the grid, and whether a set pixel has been turned off so far (R164). -/
structure Canvas where
  grid : Grid
  hit : Bool
  deriving DecidableEq, Repr

/-- XOR one pixel with 1 and record a collision from its value before (R162, R164). -/
def Canvas.flip (c : Canvas) (px : Fin 64) (py : Fin 32) : Canvas :=
  { grid := c.grid.put px py (!c.grid.get px py), hit := c.hit || c.grid.get px py }

/-- The columns 0 .. count-1 of one sprite row, most significant bit first, px wrapped modulo 64 (R162, R163). -/
def Canvas.drawBits (c : Canvas) (cx : Byte) (py : Fin 32) (row : Byte) : Nat → Canvas
  | 0 => c
  | col + 1 =>
    let d := Canvas.drawBits c cx py row col
    if row.getLsbD (7 - col) then d.flip (Fin.ofNat 64 (cx.toNat + col)) py else d

/-- The rows 0 .. count-1 of a sprite, py wrapped modulo 32, each row's byte read from EA(row) (R162, R163). -/
def Canvas.drawRows (c : Canvas) (s : State) (cx cy : Byte) : Nat → Canvas
  | 0 => c
  | r + 1 =>
    (Canvas.drawRows c s cx cy r).drawBits cx (Fin.ofNat 32 (cy.toNat + r)) (s.memRead (ea s.i r)) 8

/-- CLS (R161). -/
def execCls (s : State) : Host.Outcome State Fault Refusal :=
  .next { s with grid := Grid.clear }.advance

/-- DRW Vx, Vy, n (R162): the coordinates are read before VF is cleared (D5, log 9); VF ends as the collision flag. -/
def execDrw (x y n : Nibble) (s : State) : Host.Outcome State Fault Refusal :=
  let c := Canvas.drawRows { grid := s.grid, hit := false } s (s.readV x) (s.readV y) n.toNat
  .next ({ s with grid := c.grid }.writeV regVF (collisionFlag c.hit)).advance

end Sys2Proof.Machine
end

