-- ==== Sys2Proof/Machine/Flow.lean ====
section
/-! DEFINITION. Control transfer and the register skips (spec 40_flow.md R100 to R110). On entry `s.pc` is P, the address of the
instruction (30_encoding.md R82). -/

namespace Sys2Proof.Machine

/-- RET (R100): underflow when SP = 0, else pop. SP above 16 has no rule and stops by name (log 24). -/
def execRet (s : State) : Host.Outcome State Fault Refusal :=
  if s.sp = 0 then .next (s.raiseFault .stackUnderflow (encode .ret))
  else if h : s.sp.toNat - 1 < 16 then .next (s.popGoto h)
  else .fault (.spOutOfRange s.sp)

/-- JP addr (R101). -/
def execJp (addr : Addr) (s : State) : Host.Outcome State Fault Refusal :=
  .next (s.goto (zextAddr addr))

/-- CALL addr (R102, C3): overflow when SP = 16, else push (P + 2) mod 65536. SP above 16 has no rule and stops by name (log 24). -/
def execCall (addr : Addr) (s : State) : Host.Outcome State Fault Refusal :=
  if s.sp = 16 then .next (s.raiseFault .stackOverflow (encode (.call addr)))
  else if h : s.sp.toNat < 16 then .next ((s.push (s.pc + 2) h).goto (zextAddr addr))
  else .fault (.spOutOfRange s.sp)

/-- SE Vx, kk (R103). -/
def execSeImm (x : Nibble) (kk : Byte) (s : State) : Host.Outcome State Fault Refusal :=
  .next (s.skipIf (decide (s.readV x = kk)))

/-- SNE Vx, kk (R104). -/
def execSneImm (x : Nibble) (kk : Byte) (s : State) : Host.Outcome State Fault Refusal :=
  .next (s.skipIf (decide (s.readV x ≠ kk)))

/-- SE Vx, Vy (R105). -/
def execSeReg (x y : Nibble) (s : State) : Host.Outcome State Fault Refusal :=
  .next (s.skipIf (decide (s.readV x = s.readV y)))

/-- SNE Vx, Vy (R106). -/
def execSneReg (x y : Nibble) (s : State) : Host.Outcome State Fault Refusal :=
  .next (s.skipIf (decide (s.readV x ≠ s.readV y)))

/-- JP V0, addr (R107): the target is not reduced (D2, log 6). -/
def execJpV0 (addr : Addr) (s : State) : Host.Outcome State Fault Refusal :=
  .next (s.goto (zextAddr addr + zextByte (s.readV 0)))

end Sys2Proof.Machine
end

