-- ==== Sys2Proof/Machine/Index.lean ====
section
/-! DEFINITION. The address register and memory transfers (spec 42_index_memory.md R140 to R146). No transfer changes I (R140, D8;
log 11). -/

namespace Sys2Proof.Machine

/-- LD I, addr (R141). -/
def execLdI (addr : Addr) (s : State) : Host.Outcome State Fault Refusal :=
  .next { s with i := zextAddr addr }.advance

/-- ADD I, Vx (R142): modulo 65536, VF not written (D7, log 10). -/
def execAddI (x : Nibble) (s : State) : Host.Outcome State Fault Refusal :=
  .next { s with i := s.i + zextByte (s.readV x) }.advance

/-- LD F, Vx (R143). -/
def execLdF (x : Nibble) (s : State) : Host.Outcome State Fault Refusal :=
  .next { s with i := glyphAddr s.params (s.readV x) }.advance

/-- LD B, Vx (R144). -/
def execLdB (x : Nibble) (s : State) : Host.Outcome State Fault Refusal :=
  .next (s.storeFrom s.i 0 (decimalDigits (s.readV x))).advance

/-- LD [I], Vx (R145): store V[0..x]. -/
def execStRegs (x : Nibble) (s : State) : Host.Outcome State Fault Refusal :=
  .next (s.storeFrom s.i 0 (s.regsUpTo x)).advance

/-- LD Vx, [I] (R146): load V[0..x]. -/
def execLdRegs (x : Nibble) (s : State) : Host.Outcome State Fault Refusal :=
  .next (s.loadRegs (x.toNat + 1)).advance

end Sys2Proof.Machine
end

