-- ==== Sys2Proof/Machine/KeysTimers.lean ====
section
/-! DEFINITION. Key and timer instructions (spec 44_keys_timers.md R180 to R186). -/

namespace Sys2Proof.Machine

/-- SKP Vx (R181): the level of the key flag now (D12, log 13). -/
def execSkp (x : Nibble) (s : State) : Host.Outcome State Fault Refusal :=
  .next (s.skipIf (s.keyDown (keyIdx (s.readV x))))

/-- SKNP Vx (R182). -/
def execSknp (x : Nibble) (s : State) : Host.Outcome State Fault Refusal :=
  .next (s.skipIf (!s.keyDown (keyIdx (s.readV x))))

/-- LD Vx, DT (R183). -/
def execLdVxDt (x : Nibble) (s : State) : Host.Outcome State Fault Refusal :=
  .next (s.writeV x s.dt).advance

/-- LD Vx, K (R184): the lowest pressed index, or the outcome Wait. -/
def execLdVxK (x : Nibble) (s : State) : Host.Outcome State Fault Refusal :=
  match s.lowestKey with
  | some k => .next { s.writeV x (BitVec.ofNat 8 k) with waitKey := false }.advance
  | none => .next s.wait

/-- LD DT, Vx (R185). -/
def execLdDtVx (x : Nibble) (s : State) : Host.Outcome State Fault Refusal :=
  .next { s with dt := s.readV x }.advance

/-- LD ST, Vx (R186). -/
def execLdStVx (x : Nibble) (s : State) : Host.Outcome State Fault Refusal :=
  .next { s with st := s.readV x }.advance

end Sys2Proof.Machine
end

