-- ==== Sys2Proof/Machine/Step.lean ====
section
/-! DEFINITION. The step: one instruction (spec 30_encoding.md R82), and the placing of one instruction word where the step fetches. -/

namespace Sys2Proof.Machine

/-- R82: defined only when fault = none; a word that is no instruction takes the InvalidInstruction fault; an instruction is
executed whole. -/
def step (s : State) : Host.Outcome State Fault Refusal :=
  match s.fault with
  | some record => .fault (.halted record)
  | none =>
    match decodeWord s.fetch with
    | .ok i => exec i s
    | .error _ => .next (s.raiseFault .invalidInstruction s.fetch)

/-- s with the word of the instruction stored big-endian at PC, and without a fault record, since no step is defined with one
(R204): the very next step runs it (log 25). -/
def State.withFetchWord (s : State) (nbits w : Nat) : State :=
  { (s.memWrite s.pc (hiByte (tableWord nbits w))).memWrite (s.pc + 1) (loByte (tableWord nbits w)) with fault := none }

end Sys2Proof.Machine
end

