-- ==== Sys2Proof/WellFormed.lean ====
section
/-! DEFINITION. The checks on what comes into the machine from outside: program images, key indices, grid coordinates, the
tick's instruction count. An INSTRUCTION needs no check: every operand is a bit vector of its field's width, so an ill-formed
one cannot be written (10_state.md R23: "no out-of-range index can arise and no check for one exists"; 93 row 2: "a model
types them as 4-bit values, so nothing needs a treatment"). -/

namespace Sys2Proof.WellFormed

/-- A program image the loader takes: at most 3584 bytes (70_reset_and_hazards.md R242). -/
def imageFits (bytes : List Byte) : Bool := decide (bytes.length ≤ Config.maxProgram)

/-- A key index that names a key: 0 to 15 (60_exceptions.md R215). -/
def keyIndex (index : Int) : Bool := decide (0 ≤ index) && decide (index ≤ 15)

/-- Grid coordinates inside the interface: x in [0,64), y in [0,32) (43_display.md R160, 60_exceptions.md R214). -/
def gridCoord (x y : Int) : Bool := decide (0 ≤ x) && decide (x < 64) && decide (0 ≤ y) && decide (y < 32)

/-- A legal value of the parameter INSTRS_PER_TICK: at least 1 (00_scope.md R5, 60_exceptions.md R209). -/
def instrsPerTick (n : Nat) : Bool := decide (1 ≤ n)

end Sys2Proof.WellFormed
end

