-- ==== Sys2Proof/Machine/Interface.lean ====
section
/-! DEFINITION. The tick and every other call of the host (spec 60_exceptions.md R209 to R216, 70_reset_and_hazards.md R240 to R242,
43_display.md R160). Host calls never overlap a tick or each other (R216), so each is a function on the state. -/

namespace Sys2Proof.Machine

/-- What a tick returns (R209). -/
inductive TickStatus where
  | ok
  | waiting
  | faulted
  deriving DecidableEq, Repr

/-- The next step of s has the outcome Wait: the instruction at PC is FX0A and no key is pressed (30_encoding.md R84,
44_keys_timers.md R184; log 29). -/
def waitsForKey (s : State) : Bool :=
  match decodeWord s.fetch with
  | .ok (.ldVxK _) => s.lowestKey.isNone
  | _ => false

/-- The instruction phase of a tick: up to n steps, ended early by a Wait or a Fault outcome (R209, C6). A step that does not
answer a next state ends it too; that is a machine already halted, or one with SP above 16 (log 24). -/
def runSteps : Nat → State → State × TickStatus
  | 0, s => (s, .ok)
  | n + 1, s =>
    match step s with
    | .next t =>
      if waitsForKey s then (t, .waiting)
      else if t.fault.isSome then (t, .faulted)
      else runSteps n t
    | .fault _ => (s, .faulted)
    | .refused _ => (s, .faulted)

/-- A timer's decrement with its floor of 0 (R210). -/
def timerDown (t : Byte) : Byte := if t = 0 then 0 else t - 1

/-- Both timers decrement once (R210). -/
def State.timersDown (s : State) : State := { s with dt := timerDown s.dt, st := timerDown s.st }

/-- tick() with INSTRS_PER_TICK = ipt (R209, D14; log 14). A faulted machine executes nothing and its timers still decrement
(D17, log 16). -/
def tick (ipt : Nat) (s : State) : State × TickStatus :=
  if s.fault.isSome then (s.timersDown, .faulted)
  else ((runSteps ipt s).1.timersDown, (runSteps ipt s).2)

/-- reset() (70_reset_and_hazards.md R240): every piece of the spec's state takes its reset value, memory that of the machine's own
FONT_BASE and FONT. The model's own draw counter goes on, so that the draws after a reset are fresh (log 1). -/
def hostReset (s : State) : State := { State.resetWith s.params with draws := s.draws }

/-- What load returns (R242). -/
inductive LoadStatus where
  | ok
  | tooLarge
  deriving DecidableEq, Repr

/-- load(bytes) (70_reset_and_hazards.md R242): too large changes nothing; else reset and copy to 0x200 on (D23, log 20). -/
def load (bytes : List Byte) (s : State) : State × LoadStatus :=
  if WellFormed.imageFits bytes then ((hostReset s).storeFrom Config.loadBase 0 bytes, .ok)
  else (s, .tooLarge)

/-- key[index] <- b for 0 ≤ index ≤ 15, no effect otherwise (R215, D22; log 19). -/
def setKey (index : Int) (b : Bool) (s : State) : State :=
  if WellFormed.keyIndex index then { s with key := s.key.setIfInBounds index.toNat b } else s

/-- set_key_down(index) (R215). -/
def setKeyDown (index : Int) (s : State) : State := setKey index true s

/-- set_key_up(index) (R215). -/
def setKeyUp (index : Int) (s : State) : State := setKey index false s

/-- get(x, y) (43_display.md R160): the cell, or a refusal outside [0,64) x [0,32) (D29, log 22). -/
def gridGet (x y : Int) (s : State) : Host.Outcome Bool Fault Refusal :=
  if WellFormed.gridCoord x y then .next (Grid.get s.grid (Fin.ofNat 64 x.toNat) (Fin.ofNat 32 y.toNat))
  else .refused (.gridOutOfRange x y)

/-- sound_active() = (ST > 0), read after a tick (R212, D25; log 21). -/
def soundActive (s : State) : Bool := decide (s.st.toNat > 0)

/-- fault_status(): the fault record (R214, 10_state.md R33). -/
def faultStatus (s : State) : Option FaultRecord := s.fault

/-- The calls of R214 that may change the state; get, sound_active and fault_status only read it. -/
inductive HostCall where
  | tick
  | reset
  | load (bytes : List Byte)
  | setKeyDown (index : Int)
  | setKeyUp (index : Int)
  deriving DecidableEq, Repr

/-- The state after a host call, for a machine with INSTRS_PER_TICK = ipt (R214). -/
def hostCall (ipt : Nat) (c : HostCall) (s : State) : State :=
  match c with
  | .tick => (tick ipt s).1
  | .reset => hostReset s
  | .load bytes => (load bytes s).1
  | .setKeyDown index => setKeyDown index s
  | .setKeyUp index => setKeyUp index s

/-- n ticks with nothing between them, the state only. -/
def ticks (ipt : Nat) : Nat → State → State
  | 0, s => s
  | n + 1, s => ticks ipt n (tick ipt s).1

end Sys2Proof.Machine
end

