-- ==== Sys2Proof/Safety.lean ====
section
/-! DEFINITION. The terms claims use: the parts of the state and frames over them, the invariant of the machine, what a host can reach,
what counts as a safe run (spec 10_state.md R38, R39, 60_exceptions.md R204, R220). -/

namespace Sys2Proof.Machine

/-- The parts of the state, one per field of `State` (10_state.md R38, and the model's own `draws` and `params`). -/
inductive Part where
  | regs | i | pc | sp | stack | dt | st | key | grid | mem | waitKey | fault | draws | params
  deriving DecidableEq, Repr

/-- A part is the same in two states; memory is compared by reading every byte. -/
def Part.Same : Part → State → State → Prop
  | .regs, s, t => ∀ x : Nibble, t.readV x = s.readV x
  | .i, s, t => t.i = s.i
  | .pc, s, t => t.pc = s.pc
  | .sp, s, t => t.sp = s.sp
  | .stack, s, t => t.stack = s.stack
  | .dt, s, t => t.dt = s.dt
  | .st, s, t => t.st = s.st
  | .key, s, t => t.key = s.key
  | .grid, s, t => t.grid = s.grid
  | .mem, s, t => ∀ a : Word, t.memRead a = s.memRead a
  | .waitKey, s, t => t.waitKey = s.waitKey
  | .fault, s, t => t.fault = s.fault
  | .draws, s, t => t.draws = s.draws
  | .params, s, t => t.params = s.params

/-- The frame: every part outside the list is the same in both states. -/
def Unchanged (but : List Part) (s t : State) : Prop := ∀ p : Part, p ∉ but → p.Same s t

/-- Every register outside the list is the same in both states. -/
def RegsUnchanged (but : List Nibble) (s t : State) : Prop := ∀ r : Nibble, r ∉ but → t.readV r = s.readV r

/-- The result of an instruction that writes one register and advances: V[x] holds the result, and nothing else changes but PC. -/
def OneRegisterResult (s t : State) (x : Nibble) (result : Nat) : Prop :=
  (t.readV x).toNat = result ∧ RegsUnchanged [x] s t ∧ t.pc = s.pc + 2 ∧ Unchanged [.regs, .pc] s t

/-- The result of an instruction that writes V[x] and then VF and advances: VF holds the flag, V[x] the result unless x is 15, and
nothing else changes but PC (41_alu.md R122). -/
def ResultAndFlag (s t : State) (x : Nibble) (result flag : Nat) : Prop :=
  (t.readV regVF).toNat = flag ∧ (x ≠ regVF → (t.readV x).toNat = result) ∧ RegsUnchanged [x, regVF] s t ∧
    t.pc = s.pc + 2 ∧ Unchanged [.regs, .pc] s t

/-- The outcome of a skip: P + 4 if the condition holds, P + 2 if not, and nothing else changes (40_flow.md R108). -/
def SkipResult (s t : State) (condition : Prop) : Prop :=
  (condition → t.pc = s.pc + 4) ∧ (¬ condition → t.pc = s.pc + 2) ∧ Unchanged [.pc] s t

/-- The parts of the state an instruction may write when it does not fault (10_state.md R22, R24 to R30, R32, 20_memory.md R59). -/
def writtenParts : Instr → List Part
  | .cls => [.grid, .pc]
  | .ret => [.sp, .pc]
  | .call _ => [.stack, .sp, .pc]
  | .jp _ | .jpV0 _ | .seImm _ _ | .sneImm _ _ | .seReg _ _ | .sneReg _ _ | .skp _ | .sknp _ => [.pc]
  | .ldImm _ _ | .addImm _ _ | .ldReg _ _ | .orReg _ _ | .andReg _ _ | .xorReg _ _ => [.regs, .pc]
  | .addReg _ _ | .subReg _ _ | .shr _ _ | .subnReg _ _ | .shl _ _ => [.regs, .pc]
  | .ldVxDt _ | .ldRegs _ => [.regs, .pc]
  | .ldVxK _ => [.regs, .waitKey, .pc]
  | .rnd _ _ => [.regs, .draws, .pc]
  | .drw _ _ _ => [.grid, .regs, .pc]
  | .ldDtVx _ => [.dt, .pc]
  | .ldStVx _ => [.st, .pc]
  | .ldI _ | .addI _ | .ldF _ => [.i, .pc]
  | .ldB _ | .stRegs _ => [.mem, .pc]

/-- The sprite of n rows drawn at (cx, cy) has a 1 bit at pixel (px, py): some column of some row lands there, columns wrapped modulo
64 and rows modulo 32, each row's byte read at I + row, most significant bit first (43_display.md R162, R163). -/
def SpriteBit (s : State) (cx cy : Byte) (n : Nat) (px : Fin 64) (py : Fin 32) : Prop :=
  ∃ row col : Nat, row < n ∧ col < 8 ∧ px.val = (cx.toNat + col) % 64 ∧ py.val = (cy.toNat + row) % 32 ∧
    (s.memRead (s.i + BitVec.ofNat 16 row)).getLsbD (7 - col) = true

/-- The word a rule's encoding line writes as `top | addr`, format A (30_encoding.md R73, for example 40_flow.md R101). -/
def wordA (top : Word) (addr : Addr) : Word := top ||| addr.setWidth 16

/-- The word a rule's encoding line writes as `top | x<<8 | kk`, formats XK and XS (for example 40_flow.md R103). -/
def wordXK (top : Word) (x : Nibble) (kk : Byte) : Word := top ||| (x.setWidth 16 <<< 8) ||| kk.setWidth 16

/-- The word a rule's encoding line writes as `top | x<<8 | y<<4 | n`, formats XYS and XYN (for example 40_flow.md R105). -/
def wordXYN (top : Word) (x y n : Nibble) : Word :=
  top ||| (x.setWidth 16 <<< 8) ||| (y.setWidth 16 <<< 4) ||| n.setWidth 16

/-- wait_key is set only at an FX0A: the word at PC is one (10_state.md R32). -/
def WaitCoherent (s : State) : Prop := s.waitKey = true → ∃ x : Nibble, decodeWord s.fetch = .ok (.ldVxK x)

/-- What a fault kind says about the state it is recorded in (60_exceptions.md R201 to R203). -/
def FaultKind.Explains (s : State) : FaultKind → Prop
  | .invalidInstruction => decodeWord s.fetch = .error (.invalid s.fetch)
  | .stackOverflow => s.sp = 16 ∧ ∃ addr : Addr, decodeWord s.fetch = .ok (.call addr)
  | .stackUnderflow => s.sp = 0 ∧ decodeWord s.fetch = .ok .ret

/-- A fault record describes the instruction at PC: its address, its word, and why it faults (10_state.md R33,
60_exceptions.md R204: "Faults are precise"). -/
def FaultCoherent (s : State) : Prop :=
  ∀ r : FaultRecord, s.fault = some r → r.pc = s.pc ∧ r.opcode = s.fetch ∧ r.kind.Explains s

/-- The invariant of the machine at every step boundary (10_state.md R39 and what R32, R33 and log 28 add). -/
structure State.Inv (s : State) : Prop where
  spLegal : s.sp.toNat ≤ Config.stackDepth
  memCanonical : Memory.wf s.params s.mem = true
  waitCoherent : WaitCoherent s
  faultCoherent : FaultCoherent s

/-- The states a host can bring the machine to: from construction with any FONT_BASE and FONT, by any calls (60_exceptions.md R214, R216, R220). -/
inductive Reachable (ipt : Nat) : State → Prop where
  | construct (params : Config.Params) : Reachable ipt (State.resetWith params)
  | call (c : HostCall) (s : State) : Reachable ipt s → Reachable ipt (hostCall ipt c s)

/-- A state of a safe run: no fault is recorded; "a faulted state is a failure, never a good end" (60_exceptions.md R220). -/
def State.Safe (s : State) : Prop := s.fault = none

end Sys2Proof.Machine
end

