-- ==== Sys2Proof/Certificates/Slice0/Obligations.lean ====
section
/-! DEFINITION. The statements for the provers. Each docstring names the rules of spec/ it formalises. Where a clause rests on a choice
the spec marks as its own decision D<n> (spec/92_eei_decisions.md) or on a choice of this model, the docstring names the log entry. -/

open Sys2Proof Sys2Proof.Machine

/-! ### Encoding -/

/-- Words of the spec's decoding vectors (95_test_vectors.md 2.1), at least one per family, and their instructions. -/
def Obligations.SpecWordsDecodeAsListed : Prop :=
  decodeWord 0x00E0 = .ok .cls ∧ decodeWord 0x00EE = .ok .ret ∧ decodeWord 0x1ABC = .ok (.jp 0xABC) ∧
  decodeWord 0x5120 = .ok (.seReg 1 2) ∧ decodeWord 0x812E = .ok (.shl 1 2) ∧ decodeWord 0x9AB0 = .ok (.sneReg 0xA 0xB) ∧
  decodeWord 0xD120 = .ok (.drw 1 2 0) ∧ decodeWord 0xE19E = .ok (.skp 1) ∧ decodeWord 0xEAA1 = .ok (.sknp 0xA) ∧
  decodeWord 0xF107 = .ok (.ldVxDt 1) ∧ decodeWord 0xF165 = .ok (.ldRegs 1) ∧
  decodeWord 0x00E1 = .error (.invalid 0x00E1) ∧ decodeWord 0x00FF = .error (.invalid 0x00FF) ∧
  decodeWord 0x0000 = .error (.invalid 0x0000) ∧ decodeWord 0x0123 = .error (.invalid 0x0123) ∧
  decodeWord 0x5121 = .error (.invalid 0x5121) ∧ decodeWord 0x812F = .error (.invalid 0x812F) ∧
  decodeWord 0x8128 = .error (.invalid 0x8128) ∧ decodeWord 0x9AB1 = .error (.invalid 0x9AB1) ∧
  decodeWord 0xE19F = .error (.invalid 0xE19F) ∧ decodeWord 0xF108 = .error (.invalid 0xF108) ∧
  decodeWord 0xF166 = .error (.invalid 0xF166) ∧ decodeWord 0xF000 = .error (.invalid 0xF000) ∧
  decodeWord 0xFFFF = .error (.invalid 0xFFFF)

/-- Decoding an encoded instruction gives it back, from the word and from its two bytes in memory order whatever follows them
(30_encoding.md R70, R71, R75). -/
def Obligations.DecodeOfEncodeIsTheInstruction : Prop :=
  ∀ (i : Instr) (rest : List Byte),
    decodeWord (encode i) = .ok i ∧ decodeBytes (encodeBytes i ++ rest) = .ok (i, rest)

/-- A word that decodes is the encoding of what it decodes to: each instruction has one word, and no bit is ignored
(30_encoding.md R75, R78: the y field of 8xy6 and 8xyE is decoded). -/
def Obligations.EncodeOfDecodeIsTheWord : Prop :=
  ∀ (w : Word) (i : Instr), decodeWord w = .ok i → encode i = w

/-- The decoder and the opcode table agree: what decodes matches its row, and what matches a row decodes to that row's instruction
(30_encoding.md R75: "the word w is this instruction when w & mask = match"). -/
def Obligations.DecodeAgreesWithOpcodeTable : Prop :=
  (∀ (w : Word) (i : Instr), decodeWord w = .ok i →
    ∃ row ∈ opcodeTable, row.mnemonic = mnemonicOf i ∧ w &&& row.mask = row.matchBits) ∧
  (∀ (w : Word) (row : OpcodeRow), row ∈ opcodeTable → w &&& row.mask = row.matchBits →
    ∃ i : Instr, decodeWord w = .ok i ∧ mnemonicOf i = row.mnemonic)

/-- The invalid words are those R76 lists, family by family, and each is rejected as itself. -/
def Obligations.InvalidWordsAreThoseListed : Prop :=
  ∀ w : Word, decodeWord w = .error (.invalid w) ↔
    (opOf w = 0x0 ∧ w ≠ 0x00E0 ∧ w ≠ 0x00EE) ∨
    (opOf w = 0x5 ∧ nOf w ≠ 0) ∨
    (opOf w = 0x8 ∧ nOf w ∈ ([0x8, 0x9, 0xA, 0xB, 0xC, 0xD, 0xF] : List Nibble)) ∨
    (opOf w = 0x9 ∧ nOf w ≠ 0) ∨
    (opOf w = 0xE ∧ kkOf w ∉ ([0x9E, 0xA1] : List Byte)) ∨
    (opOf w = 0xF ∧ kkOf w ∉ ([0x07, 0x0A, 0x15, 0x18, 0x1E, 0x29, 0x33, 0x55, 0x65] : List Byte))

/-! ### The step and faults -/

/-- A step of a machine without a fault record, whose two bytes at PC (big-endian, R71) decode, is the execution of the decoded
instruction (30_encoding.md R82); exec moves PC itself. Each address is reduced by mask12, the spec's decision D1 (log 5). -/
def Obligations.StepRunsDecodedInstruction : Prop :=
  ∀ (s : State) (i : Instr), s.fault = none →
    decodeWord (wordOfBytes (s.memRead s.pc) (s.memRead (s.pc + 1))) = .ok i → step s = exec i s

/-- A step at a word that is no instruction records InvalidInstruction with the address and the word and changes nothing else
(60_exceptions.md R201, R204; that nothing else changes is the spec's decision D16, log 15). -/
def Obligations.InvalidWordTakesFault : Prop :=
  ∀ (s : State) (e : Reject), s.fault = none →
    decodeWord (wordOfBytes (s.memRead s.pc) (s.memRead (s.pc + 1))) = .error e →
    ∃ t : State, step s = .next t ∧
      t.fault = some { kind := .invalidInstruction, pc := s.pc, opcode := wordOfBytes (s.memRead s.pc) (s.memRead (s.pc + 1)) } ∧
      Unchanged [.fault] s t

/-- No step is defined while a fault is recorded: the machine is stuck under the name `halted` (60_exceptions.md R204, D16, log 15). -/
def Obligations.FaultedMachineHasNoStep : Prop :=
  ∀ (s : State) (r : FaultRecord), s.fault = some r → step s = .fault (.halted r)

/-- Faults are precise: a step that records a fault records the address and the word of the instruction at PC and a kind that explains
it, and changes nothing else (60_exceptions.md R204, R206, D16, log 15). -/
def Obligations.FaultsArePrecise : Prop :=
  ∀ (s t : State) (r : FaultRecord), step s = .next t → t.fault = some r →
    r.pc = s.pc ∧ r.opcode = s.fetch ∧ r.kind.Explains s ∧ Unchanged [.fault] s t

/-- A machine without a fault record and with a legal SP always has a next state, and no step of any state is refused
(30_encoding.md R84, 60_exceptions.md R220: no instruction halts the machine without a fault). -/
def Obligations.LegalStateAlwaysSteps : Prop :=
  (∀ s : State, s.fault = none → s.sp.toNat ≤ 16 → ∃ t : State, step s = .next t) ∧
  (∀ (s : State) (r : Refusal), step s ≠ .refused r)

/-! ### Control transfer -/

/-- JP addr (40_flow.md R101): its encoding; PC is zext_16(addr), nothing else changes. -/
def Obligations.JumpSetsPc : Prop :=
  ∀ (addr : Addr) (s : State), decodeWord (wordA 0x1000 addr) = .ok (.jp addr) ∧ ∃ t : State, exec (.jp addr) s = .next t ∧ t.pc.toNat = addr.toNat ∧ Unchanged [.pc] s t

/-- CALL addr (40_flow.md R102): its encoding; with SP below 16 it pushes (P + 2) mod 65536, not reduced to 12 bits (D2, log 6), and jumps;
with SP = 16 it raises StackOverflow and writes nothing else (the entry is the spec's decision D16, log 15). -/
def Obligations.CallPushesReturnAddress : Prop :=
  ∀ (addr : Addr) (s : State),
    decodeWord (wordA 0x2000 addr) = .ok (.call addr) ∧
    (s.sp.toNat < 16 → ∃ t : State, exec (.call addr) s = .next t ∧
      (∀ (j : Nat) (h : j < 16), t.stack[j] = if j = s.sp.toNat then s.pc + 2 else s.stack[j]) ∧
      t.sp.toNat = s.sp.toNat + 1 ∧ t.pc.toNat = addr.toNat ∧ Unchanged [.stack, .sp, .pc] s t) ∧
    (s.sp.toNat = 16 → ∃ t : State, exec (.call addr) s = .next t ∧
      (∃ r : FaultRecord, t.fault = some r ∧ r.kind = .stackOverflow) ∧ Unchanged [.fault] s t)

/-- RET (40_flow.md R100): with SP in 1..16 it pops into PC and leaves the entry as it was (D31, log 23); with SP = 0 it records
StackUnderflow with its address and word and writes nothing else (60_exceptions.md R203, R204, D16, log 15). -/
def Obligations.ReturnPopsStack : Prop :=
  ∀ s : State,
    (∀ h : 1 ≤ s.sp.toNat ∧ s.sp.toNat ≤ 16, ∃ t : State, exec .ret s = .next t ∧
      t.pc = s.stack[s.sp.toNat - 1] ∧ t.sp.toNat = s.sp.toNat - 1 ∧ Unchanged [.sp, .pc] s t) ∧
    (s.sp.toNat = 0 → ∃ t : State, exec .ret s = .next t ∧
      t.fault = some { kind := .stackUnderflow, pc := s.pc, opcode := 0x00EE } ∧ Unchanged [.fault] s t)

/-- The source's property L1-3: a CALL and then a RET restores PC to P + 2 and SP to its value before the call; nothing but the stack
entry differs. That P + 2 is not reduced to 12 bits is the spec's decision D2 (log 6). -/
def Obligations.CallThenReturnRoundTrip : Prop :=
  ∀ (addr : Addr) (s : State), s.sp.toNat < 16 →
    ∃ t u : State, exec (.call addr) s = .next t ∧ exec .ret t = .next u ∧
      u.pc = s.pc + 2 ∧ Unchanged [.stack, .pc] s u

/-- The register skips SE and SNE (40_flow.md R103, R104, R105, R106): their encodings, the words next to them that are invalid, and the
skip, whose target P + 4 or P + 2 modulo 65536 is the spec's decisions D30 and D2 (log 6). -/
def Obligations.RegisterSkips : Prop :=
  ∀ (x y : Nibble) (kk : Byte) (s : State),
    decodeWord (wordXK 0x3000 x kk) = .ok (.seImm x kk) ∧ decodeWord (wordXK 0x4000 x kk) = .ok (.sneImm x kk) ∧
    decodeWord (wordXYN 0x5000 x y 0) = .ok (.seReg x y) ∧ decodeWord (wordXYN 0x9000 x y 0) = .ok (.sneReg x y) ∧
    (∀ n : Nibble, n ≠ 0 → decodeWord (wordXYN 0x5000 x y n) = .error (.invalid (wordXYN 0x5000 x y n)) ∧
      decodeWord (wordXYN 0x9000 x y n) = .error (.invalid (wordXYN 0x9000 x y n))) ∧
    (∃ t : State, exec (.seImm x kk) s = .next t ∧ SkipResult s t (s.readV x = kk)) ∧
    (∃ t : State, exec (.sneImm x kk) s = .next t ∧ SkipResult s t (s.readV x ≠ kk)) ∧
    (∃ t : State, exec (.seReg x y) s = .next t ∧ SkipResult s t (s.readV x = s.readV y)) ∧
    (∃ t : State, exec (.sneReg x y) s = .next t ∧ SkipResult s t (s.readV x ≠ s.readV y))

/-- JP V0, addr (40_flow.md R107): PC is addr + V[0], not reduced (D2, log 6). -/
def Obligations.JumpV0Target : Prop :=
  ∀ (addr : Addr) (s : State), ∃ t : State, exec (.jpV0 addr) s = .next t ∧
    t.pc.toNat = addr.toNat + (s.readV 0).toNat ∧ Unchanged [.pc] s t

/-! ### Register loads and arithmetic -/

/-- LD Vx, kk and LD Vx, Vy (41_alu.md R123, R125): their encodings and their effect. -/
def Obligations.LoadsSetOneRegister : Prop :=
  ∀ (x y : Nibble) (kk : Byte) (s : State),
    decodeWord (wordXK 0x6000 x kk) = .ok (.ldImm x kk) ∧ decodeWord (wordXYN 0x8000 x y 0) = .ok (.ldReg x y) ∧
    (∃ t : State, exec (.ldImm x kk) s = .next t ∧ OneRegisterResult s t x kk.toNat) ∧
    (∃ t : State, exec (.ldReg x y) s = .next t ∧ OneRegisterResult s t x (s.readV y).toNat)

/-- ADD Vx, kk (41_alu.md R124): modulo 256, and no flag: VF changes only as the destination (D34, log 10). -/
def Obligations.AddImmediateSetsNoFlag : Prop :=
  ∀ (x : Nibble) (kk : Byte) (s : State), ∃ t : State, exec (.addImm x kk) s = .next t ∧
    OneRegisterResult s t x (((s.readV x).toNat + kk.toNat) % 256)

/-- OR, AND and XOR (41_alu.md R126, R127, R128), bit by bit; VF changes only as the destination (D6, log 10). -/
def Obligations.LogicOpsSetNoFlag : Prop :=
  ∀ (x y : Nibble) (s : State),
    (∃ t : State, exec (.orReg x y) s = .next t ∧
      (∀ j < 8, (t.readV x).getLsbD j = ((s.readV x).getLsbD j || (s.readV y).getLsbD j)) ∧
      RegsUnchanged [x] s t ∧ t.pc = s.pc + 2 ∧ Unchanged [.regs, .pc] s t) ∧
    (∃ t : State, exec (.andReg x y) s = .next t ∧
      (∀ j < 8, (t.readV x).getLsbD j = ((s.readV x).getLsbD j && (s.readV y).getLsbD j)) ∧
      RegsUnchanged [x] s t ∧ t.pc = s.pc + 2 ∧ Unchanged [.regs, .pc] s t) ∧
    (∃ t : State, exec (.xorReg x y) s = .next t ∧
      (∀ j < 8, (t.readV x).getLsbD j = ((s.readV x).getLsbD j ^^ (s.readV y).getLsbD j)) ∧
      RegsUnchanged [x] s t ∧ t.pc = s.pc + 2 ∧ Unchanged [.regs, .pc] s t)

/-- ADD, SUB and SUBN of two registers (41_alu.md R129, R130, R132) in exact integers reduced modulo 256, for every x and y: VF ends as
the carry or the strict not-borrow, also when x is 15 (the flag is written last, D4, log 8) or y is 15 (operands are read first, D5,
log 9). -/
def Obligations.AddAndSubtractWithFlag : Prop :=
  ∀ (x y : Nibble) (s : State) (a b : Nat), (s.readV x).toNat = a → (s.readV y).toNat = b →
    (∃ t : State, exec (.addReg x y) s = .next t ∧ ResultAndFlag s t x ((a + b) % 256) (if a + b > 255 then 1 else 0)) ∧
    (∃ t : State, exec (.subReg x y) s = .next t ∧ ResultAndFlag s t x ((a + 256 - b) % 256) (if a > b then 1 else 0)) ∧
    (∃ t : State, exec (.subnReg x y) s = .next t ∧ ResultAndFlag s t x ((b + 256 - a) % 256) (if b > a then 1 else 0))

/-- SHR and SHL by one (41_alu.md R131, R133): the operand is V[x], VF ends as the bit shifted out (also when x is 15: D4, log 8), and y
is ignored (30_encoding.md R78). -/
def Obligations.ShiftsByOneWithFlag : Prop :=
  ∀ (x y : Nibble) (s : State) (a : Nat), (s.readV x).toNat = a →
    (∃ t : State, exec (.shr x y) s = .next t ∧ ResultAndFlag s t x (a / 2) (a % 2)) ∧
    (∃ t : State, exec (.shl x y) s = .next t ∧ ResultAndFlag s t x (2 * a % 256) (a / 128))

/-- RND Vx, kk (41_alu.md R134): V[x] is the next free byte AND kk, and the next draw is another one. It holds for every value of the free
byte (D15, log 1). -/
def Obligations.RandomByteMasked : Prop :=
  ∀ (x : Nibble) (kk : Byte) (s : State), ∃ t : State, exec (.rnd x kk) s = .next t ∧
    t.readV x = Config.draw8 s.draws &&& kk ∧ (∀ j < 8, kk.getLsbD j = false → (t.readV x).getLsbD j = false) ∧
    t.draws = s.draws + 1 ∧ RegsUnchanged [x] s t ∧ t.pc = s.pc + 2 ∧ Unchanged [.regs, .draws, .pc] s t

/-! ### The address register and memory transfers -/

/-- LD I, addr (42_index_memory.md R141): its encoding; I is zext_16(addr). -/
def Obligations.LoadIndexRegister : Prop :=
  ∀ (addr : Addr) (s : State), decodeWord (wordA 0xA000 addr) = .ok (.ldI addr) ∧ ∃ t : State, exec (.ldI addr) s = .next t ∧
    t.i.toNat = addr.toNat ∧ t.pc = s.pc + 2 ∧ Unchanged [.i, .pc] s t

/-- ADD I, Vx (42_index_memory.md R142): modulo 65536, I not reduced to 12 bits, VF not written (D7, log 10). -/
def Obligations.AddToIndexRegister : Prop :=
  ∀ (x : Nibble) (s : State), ∃ t : State, exec (.addI x) s = .next t ∧
    t.i.toNat = (s.i.toNat + (s.readV x).toNat) % 65536 ∧ t.pc = s.pc + 2 ∧ Unchanged [.i, .pc] s t

/-- LD F, Vx (42_index_memory.md R143): I is FONT_BASE + 5 times the low nibble of V[x], for every FONT_BASE (a parameter: D9, log 2). -/
def Obligations.FontGlyphAddress : Prop :=
  ∀ (x : Nibble) (s : State), ∃ t : State, exec (.ldF x) s = .next t ∧
    t.i.toNat = s.params.fontBase.val + 5 * ((s.readV x).toNat % 16) ∧ t.pc = s.pc + 2 ∧ Unchanged [.i, .pc] s t

/-- LD B, Vx (42_index_memory.md R144): the three decimal digits of V[x] at I, I + 1 and I + 2, each address reduced by mask12 (R140, D1, log 5); no other
byte and no other part changes. -/
def Obligations.DecimalDigitsStored : Prop :=
  ∀ (x : Nibble) (s : State) (a : Nat), (s.readV x).toNat = a →
    ∃ t : State, exec (.ldB x) s = .next t ∧
      (t.memRead (ea s.i 0)).toNat = a / 100 ∧ (t.memRead (ea s.i 1)).toNat = a / 10 % 10 ∧ (t.memRead (ea s.i 2)).toNat = a % 10 ∧
      (∀ b : Word, (∀ k < 3, mask12 b ≠ ea s.i k) → t.memRead b = s.memRead b) ∧
      t.pc = s.pc + 2 ∧ Unchanged [.mem, .pc] s t

/-- LD [I], Vx (42_index_memory.md R145): V[0..x] at I, I + 1, ...; no other byte changes, and I does not (D8, log 11). -/
def Obligations.StoreRegistersToMemory : Prop :=
  ∀ (x : Nibble) (s : State), ∃ t : State, exec (.stRegs x) s = .next t ∧
    (∀ k : Nibble, k.toNat ≤ x.toNat → t.memRead (ea s.i k.toNat) = s.readV k) ∧
    (∀ b : Word, (∀ k ≤ x.toNat, mask12 b ≠ ea s.i k) → t.memRead b = s.memRead b) ∧
    t.pc = s.pc + 2 ∧ Unchanged [.mem, .pc] s t

/-- LD Vx, [I] (42_index_memory.md R146): V[0..x] from I, I + 1, ...; the other registers stay, and I does (D8, log 11). -/
def Obligations.LoadRegistersFromMemory : Prop :=
  ∀ (x : Nibble) (s : State), ∃ t : State, exec (.ldRegs x) s = .next t ∧
    (∀ k : Nibble, t.readV k = if k.toNat ≤ x.toNat then s.memRead (ea s.i k.toNat) else s.readV k) ∧
    t.pc = s.pc + 2 ∧ Unchanged [.regs, .pc] s t

/-- Registers stored by LD [I], Vx come back by LD Vx, [I] from any later state with the same I and memory (42_index_memory.md R145,
R146; that I is the same rests on D8, log 11). Each address is reduced by mask12, the spec's decision D1 (log 5). -/
def Obligations.StoreThenLoadRestoresRegisters : Prop :=
  ∀ (x : Nibble) (s t u : State), exec (.stRegs x) s = .next t → u.i = t.i → (∀ a : Word, u.memRead a = t.memRead a) →
    ∃ r : State, exec (.ldRegs x) u = .next r ∧ ∀ k : Nibble, k.toNat ≤ x.toNat → r.readV k = s.readV k

/-! ### The output grid -/

/-- CLS (43_display.md R161): its encoding; every cell is false, nothing else changes but PC. That VF is unchanged is the spec's
decision D34 (log 10). -/
def Obligations.ClearTurnsEveryCellOff : Prop :=
  ∀ s : State, decodeWord 0x00E0 = .ok .cls ∧ ∃ t : State, exec .cls s = .next t ∧
    (∀ (px : Fin 64) (py : Fin 32), Grid.get t.grid px py = false) ∧ t.pc = s.pc + 2 ∧ Unchanged [.grid, .pc] s t

/-- DRW Vx, Vy, n (43_display.md R162, R163): exactly the pixels under the sprite's 1 bits are inverted, coordinates wrapped, for every
x, y and n; V[x] and V[y] are read before VF is cleared (D5, log 9). The address of each sprite byte is reduced by mask12, the spec's
decision D1 (log 5). -/
def Obligations.DrawInvertsSpriteBits : Prop :=
  ∀ (x y n : Nibble) (s : State), ∃ t : State, exec (.drw x y n) s = .next t ∧
    (∀ (px : Fin 64) (py : Fin 32),
      (SpriteBit s (s.readV x) (s.readV y) n.toNat px py → Grid.get t.grid px py = !Grid.get s.grid px py) ∧
      (¬ SpriteBit s (s.readV x) (s.readV y) n.toNat px py → Grid.get t.grid px py = Grid.get s.grid px py)) ∧
    RegsUnchanged [regVF] s t ∧ t.pc = s.pc + 2 ∧ Unchanged [.grid, .regs, .pc] s t

/-- The collision detector (43_display.md R162, R164): after a draw VF is 1 if a 1 bit of the sprite fell on a pixel that was set, else
0, for every x, y and n, n = 0 among them (the coordinates are those before VF is cleared: D5, log 9). The address of each sprite byte
is reduced by mask12, the spec's decision D1 (log 5). -/
def Obligations.DrawSetsCollisionFlag : Prop :=
  ∀ (x y n : Nibble) (s : State), ∃ t : State, exec (.drw x y n) s = .next t ∧
    ((∃ (px : Fin 64) (py : Fin 32), SpriteBit s (s.readV x) (s.readV y) n.toNat px py ∧ Grid.get s.grid px py = true) →
      t.readV regVF = 1) ∧
    ((¬ ∃ (px : Fin 64) (py : Fin 32), SpriteBit s (s.readV x) (s.readV y) n.toNat px py ∧ Grid.get s.grid px py = true) →
      t.readV regVF = 0)

/-- The source's property L1-4 as R162 gives it (43_display.md R165): with x and y other than 15, the same draw twice restores the grid,
and the second draw leaves VF = 1 exactly when some 1 bit of the sprite fell on a pixel that was clear before the first draw (log 31).
The address of each sprite byte is reduced by mask12, the spec's decision D1 (log 5). -/
def Obligations.DrawTwiceRestoresGrid : Prop :=
  ∀ (x y n : Nibble) (s : State), x ≠ regVF → y ≠ regVF →
    ∃ t u : State, exec (.drw x y n) s = .next t ∧ exec (.drw x y n) t = .next u ∧ u.grid = s.grid ∧
      ((∃ (px : Fin 64) (py : Fin 32), SpriteBit s (s.readV x) (s.readV y) n.toNat px py ∧ Grid.get s.grid px py = false) →
        u.readV regVF = 1) ∧
      ((¬ ∃ (px : Fin 64) (py : Fin 32), SpriteBit s (s.readV x) (s.readV y) n.toNat px py ∧ Grid.get s.grid px py = false) →
        u.readV regVF = 0)

/-- EXPECTED TO FAIL. The last clause of R165 read literally: whatever the grid held before, the second of two equal draws leaves VF = 1
whenever the sprite has a 1 bit. It contradicts the pseudocode of R162 where every such pixel was set before the first draw (log 31). -/
def Obligations.SecondDrawCollidesWhateverTheGrid : Prop :=
  ∀ (x y n : Nibble) (s t u : State), x ≠ regVF → y ≠ regVF → exec (.drw x y n) s = .next t → exec (.drw x y n) t = .next u →
    (∃ (px : Fin 64) (py : Fin 32), SpriteBit s (s.readV x) (s.readV y) n.toNat px py) → u.readV regVF = 1

/-! ### Keys and timers -/

/-- SKP and SKNP (44_keys_timers.md R181, R182) test the level of the key named by the low nibble of V[x] (D11, log 12; D12, log 13).
The skip's target P + 4 or P + 2 modulo 65536 is the spec's decisions D30 and D2 (log 6). -/
def Obligations.KeySkipsUseLowNibble : Prop :=
  ∀ (x k : Nibble) (s : State), k.toNat = (s.readV x).toNat % 16 →
    (∃ t : State, exec (.skp x) s = .next t ∧ SkipResult s t (s.keyDown k = true)) ∧
    (∃ t : State, exec (.sknp x) s = .next t ∧ SkipResult s t (s.keyDown k = false))

/-- LD Vx, DT (44_keys_timers.md R183): its encoding; V[x] is DT. -/
def Obligations.DelayTimerRead : Prop :=
  ∀ (x : Nibble) (s : State), decodeWord (wordXK 0xF000 x 0x07) = .ok (.ldVxDt x) ∧ ∃ t : State, exec (.ldVxDt x) s = .next t ∧ OneRegisterResult s t x s.dt.toNat

/-- LD DT, Vx and LD ST, Vx (44_keys_timers.md R185, R186): the timer is V[x]. -/
def Obligations.TimersSetFromRegister : Prop :=
  ∀ (x : Nibble) (s : State),
    (∃ t : State, exec (.ldDtVx x) s = .next t ∧ t.dt = s.readV x ∧ t.pc = s.pc + 2 ∧ Unchanged [.dt, .pc] s t) ∧
    (∃ t : State, exec (.ldStVx x) s = .next t ∧ t.st = s.readV x ∧ t.pc = s.pc + 2 ∧ Unchanged [.st, .pc] s t)

/-- LD Vx, K with a key pressed (44_keys_timers.md R184): V[x] is the lowest pressed index (D12, log 13), wait_key is false and the
instruction completes. -/
def Obligations.KeyWaitTakesLowestKey : Prop :=
  ∀ (x k : Nibble) (s : State), s.keyDown k = true → (∀ j : Nibble, j.toNat < k.toNat → s.keyDown j = false) →
    ∃ t : State, exec (.ldVxK x) s = .next t ∧ (t.readV x).toNat = k.toNat ∧ RegsUnchanged [x] s t ∧
      t.waitKey = false ∧ t.pc = s.pc + 2 ∧ Unchanged [.regs, .waitKey, .pc] s t

/-- LD Vx, K with no key pressed (44_keys_timers.md R184, 30_encoding.md R82): the outcome Wait, which keeps PC at P, sets wait_key and changes
nothing else (D13, log 13). -/
def Obligations.KeyWaitBlocksWithoutKey : Prop :=
  ∀ (x : Nibble) (s : State), (∀ k : Nibble, s.keyDown k = false) →
    ∃ t : State, exec (.ldVxK x) s = .next t ∧ t.waitKey = true ∧ t.pc = s.pc ∧ Unchanged [.waitKey] s t

/-! ### Who writes what -/

/-- SP (10_state.md R26): reset value 0; every step keeps 0 ≤ SP ≤ 16; only 2NNN (SP + 1) and 00EE (SP - 1) write it; no instruction reads it
into a general register, so the registers come out the same whatever SP held. -/
def Obligations.OnlyCallAndReturnMoveSp : Prop :=
  State.reset.sp = 0 ∧
  (∀ s t : State, step s = .next t → s.sp.toNat ≤ 16 → t.sp.toNat ≤ 16) ∧
  (∀ s t : State, step s = .next t → t.sp ≠ s.sp →
    (∃ addr : Addr, decodeWord s.fetch = .ok (.call addr) ∧ t.sp = s.sp + 1) ∨
    (decodeWord s.fetch = .ok .ret ∧ t.sp = s.sp - 1)) ∧
  (∀ (i : Instr) (s t u : State) (sp : Byte), exec i s = .next t → exec i { s with sp := sp } = .next u →
    ∀ x : Nibble, u.readV x = t.readV x)

/-- The key matrix (10_state.md R29, 60_exceptions.md R216, 70_reset_and_hazards.md R247): no step and no tick writes it. Neither writes
the parameters FONT_BASE and FONT, and no other call of the host does (10_state.md R38: "parameters of the step relation", log 2, log
3). That the host's calls, which alone write keys, come only between ticks is the spec's decision D26 (log 21). -/
def Obligations.CoreNeverWritesKeys : Prop :=
  (∀ s t : State, step s = .next t → t.key = s.key ∧ t.params = s.params) ∧
  (∀ (ipt : Nat) (s : State), (tick ipt s).1.key = s.key) ∧
  (∀ (ipt : Nat) (c : HostCall) (s : State), (hostCall ipt c s).params = s.params)

/-- An instruction that answers a next state has changed only the parts its rules name, or has recorded a fault and changed nothing else
(10_state.md R22, R25, R27, R28, R30, 20_memory.md R59, 60_exceptions.md R204, R210). That FX1E leaves VF, that the transfers leave I
and that other instructions whose rules name no flag leave VF are the spec's decisions D7, D8, D6 and D34 (logs 10 and 11), the fault
entry is its D16 (log 15). -/
def Obligations.ExecWritesOnlyItsParts : Prop :=
  ∀ (i : Instr) (s t : State), exec i s = .next t →
    (t.fault = s.fault ∧ Unchanged (writtenParts i) s t) ∨
    ((∃ r : FaultRecord, t.fault = some r) ∧ Unchanged [.fault] s t ∧ (i = .ret ∨ ∃ addr : Addr, i = .call addr))

/-! ### The tick and the host's calls -/

/-- A tick runs INSTRS_PER_TICK instructions and then decrements the timers (60_exceptions.md R209, D14, log 14): a tick that returns ok is
that many steps of the core, and steps that neither wait nor fault make a tick that returns ok. -/
def Obligations.TickOkRunsItsInstructions : Prop :=
  (∀ (ipt : Nat) (s : State), (tick ipt s).2 = .ok →
    ∃ t : State, Sys2Proof.core.run ipt s = .next t ∧ t.fault = none ∧ (tick ipt s).1 = t.timersDown) ∧
  (∀ (ipt : Nat) (s t : State), Sys2Proof.core.run ipt s = .next t → t.fault = none →
    (∀ (k : Nat) (u : State), k < ipt → Sys2Proof.core.run k s = .next u → waitsForKey u = false) →
    tick ipt s = (t.timersDown, .ok))

/-- A tick ends early only at a Wait or a Fault outcome (60_exceptions.md R206, R209): a machine without a fault record and with a legal
SP whose tick returns waiting has run k steps to a state that waits at an FX0A, and one whose tick returns faulted has run k steps to a
state whose step records a fault; either way the timers decrement once. That a wait ends the instruction phase is the spec's decision
D13 (log 13), the fault entry its D16 (log 15), the decrement after either its D17 (log 16). -/
def Obligations.TickStopsOnlyAtWaitOrFault : Prop :=
  ∀ (ipt : Nat) (s : State), s.fault = none → s.sp.toNat ≤ 16 →
    ((tick ipt s).2 = .waiting → ∃ (k : Nat) (u : State), k < ipt ∧ Sys2Proof.core.run k s = .next u ∧ u.fault = none ∧
      (∃ x : Nibble, decodeWord u.fetch = .ok (.ldVxK x)) ∧ (∀ j : Nibble, u.keyDown j = false) ∧
      (tick ipt s).1 = u.wait.timersDown) ∧
    ((tick ipt s).2 = .faulted → ∃ (k : Nat) (u t : State), k < ipt ∧ Sys2Proof.core.run k s = .next u ∧ step u = .next t ∧
      t.fault ≠ none ∧ (tick ipt s).1 = t.timersDown)

/-- A tick of a faulted machine executes nothing, returns faulted and still decrements both timers down to 0
(60_exceptions.md R209, R210, D17, log 16). -/
def Obligations.FaultedTickOnlyDecrementsTimers : Prop :=
  ∀ (ipt : Nat) (s : State) (r : FaultRecord), s.fault = some r →
    (tick ipt s).2 = .faulted ∧ (tick ipt s).1.dt.toNat = s.dt.toNat - 1 ∧ (tick ipt s).1.st.toNat = s.st.toNat - 1 ∧
    Unchanged [.dt, .st] s (tick ipt s).1

/-- The key wait across ticks (60_exceptions.md R213): while an FX0A at PC finds no key, every tick returns waiting, leaves PC and sets
wait_key, and the timers count down, for any number of ticks; a tick that starts with a key pressed completes the FX0A as its first step
and continues with the next instructions. The level test and the wait's effect on the tick are the spec's decisions D12 and D13 (log 13), the
decrement in a waiting tick is its D17 (log 16). -/
def Obligations.KeyWaitAcrossTicks : Prop :=
  ∀ (ipt : Nat) (x : Nibble) (s : State), 1 ≤ ipt → s.fault = none → decodeWord s.fetch = .ok (.ldVxK x) →
    ((∀ k : Nibble, s.keyDown k = false) → ∀ n : Nat,
      (tick ipt (ticks ipt n s)).2 = .waiting ∧ (ticks ipt (n + 1) s).waitKey = true ∧ (ticks ipt (n + 1) s).pc = s.pc ∧
      (ticks ipt (n + 1) s).dt.toNat = s.dt.toNat - (n + 1) ∧ (ticks ipt (n + 1) s).st.toNat = s.st.toNat - (n + 1) ∧
      Unchanged [.waitKey, .dt, .st] s (ticks ipt (n + 1) s)) ∧
    ((∃ k : Nibble, s.keyDown k = true) → ∃ t : State, exec (.ldVxK x) s = .next t ∧ t.pc = s.pc + 2 ∧ t.waitKey = false ∧
      tick ipt s = ((runSteps (ipt - 1) t).1.timersDown, (runSteps (ipt - 1) t).2))

/-- The source's property L1-7 (60_exceptions.md R210): over n ticks whose instructions leave DT alone, DT counts down by n and stops at
0. That a tick of a faulted machine decrements too is the spec's decision D17 (log 16). -/
def Obligations.DelayTimerCountsDownToZero : Prop :=
  ∀ (ipt n : Nat) (s : State),
    (∀ k < n, (runSteps ipt (ticks ipt k s)).1.dt = (ticks ipt k s).dt) → (ticks ipt n s).dt.toNat = s.dt.toNat - n

/-- Construction and reset() (70_reset_and_hazards.md R240, R241, 10_state.md R36), for every FONT_BASE and FONT: PC 0x200 and SP 0 are the
source's values; the zeros, the released keys, the clear grid and no fault are the spec's decision D19 (log 4); reset() keeps the machine's
parameters; only the model's own draw counter goes on (log 1). `State.reset` is the machine with the spec's default parameters. -/
def Obligations.ResetGivesResetValues : Prop :=
  State.reset = State.resetWith defaultParams ∧
  ∀ (p : Config.Params) (s t : State), t = State.resetWith p ∨ (s.params = p ∧ t = hostReset s) →
    t.pc = 0x200 ∧ t.sp = 0 ∧ (∀ x : Nibble, t.readV x = 0) ∧ t.i = 0 ∧ (∀ (j : Nat) (h : j < 16), t.stack[j] = 0) ∧
    t.dt = 0 ∧ t.st = 0 ∧ (∀ k : Nibble, t.keyDown k = false) ∧
    (∀ (px : Fin 64) (py : Fin 32), Grid.get t.grid px py = false) ∧ t.waitKey = false ∧ t.fault = none ∧ t.params = p ∧
    (∀ a : Word, t.memRead a = (State.resetWith p).memRead a)

/-- Memory after reset (10_state.md R31, R36, R37): for every FONT_BASE and FONT, the 80 FONT bytes at FONT_BASE and 0 elsewhere (the zeros are
D19, log 4). With the spec's defaults the bytes are R37's table (from general knowledge: D10, log 3) and they stand at 0x000 (D9, log 2). -/
def Obligations.ResetMemoryIsFontAndZeros : Prop :=
  (∀ (p : Config.Params) (k : Nat) (h : k < 80),
    (State.resetWith p).memRead (BitVec.ofNat 16 (p.fontBase.val + k)) = p.font[k]) ∧
  (∀ (p : Config.Params) (a : Word), (mask12 a).toNat < p.fontBase.val ∨ p.fontBase.val + 80 ≤ (mask12 a).toNat →
    (State.resetWith p).memRead a = 0) ∧
  (List.range 80).map (fun k => State.reset.memRead (BitVec.ofNat 16 k)) =
    [0xF0, 0x90, 0x90, 0x90, 0xF0, 0x20, 0x60, 0x20, 0x20, 0x70, 0xF0, 0x10, 0xF0, 0x80, 0xF0, 0xF0, 0x10, 0xF0, 0x10, 0xF0] ++
    [0x90, 0x90, 0xF0, 0x10, 0x10, 0xF0, 0x80, 0xF0, 0x10, 0xF0, 0xF0, 0x80, 0xF0, 0x90, 0xF0, 0xF0, 0x10, 0x20, 0x40, 0x40] ++
    [0xF0, 0x90, 0xF0, 0x90, 0xF0, 0xF0, 0x90, 0xF0, 0x10, 0xF0, 0xF0, 0x90, 0xF0, 0x90, 0x90, 0xE0, 0x90, 0xE0, 0x90, 0xE0] ++
    [0xF0, 0x80, 0x80, 0x80, 0xF0, 0xE0, 0x90, 0x90, 0x90, 0xE0, 0xF0, 0x80, 0xF0, 0x80, 0xF0, 0xF0, 0x80, 0xF0, 0x80, 0x80]

/-- load(bytes) (70_reset_and_hazards.md R242): at most 3584 bytes are placed at 0x200 in a reset machine of the same parameters, every other byte
being as after reset; a longer image changes nothing and is refused (D23, log 20). -/
def Obligations.LoadPlacesProgram : Prop :=
  ∀ (bytes : List Byte) (s : State),
    (bytes.length ≤ 3584 → (load bytes s).2 = .ok ∧
      (∀ (k : Nat) (h : k < bytes.length), (load bytes s).1.memRead (BitVec.ofNat 16 (0x200 + k)) = bytes[k]) ∧
      (∀ a : Word, (mask12 a).toNat < 0x200 ∨ 0x200 + bytes.length ≤ (mask12 a).toNat →
        (load bytes s).1.memRead a = (State.resetWith s.params).memRead a) ∧
      Unchanged [.mem, .draws] (State.resetWith s.params) (load bytes s).1) ∧
    (3584 < bytes.length → load bytes s = (s, .tooLarge))

/-- The source's property L1-5: loading, running, resetting and loading again gives what loading into a new machine of the same
parameters gives, in every part but the model's own draw counter (log 1). That a new machine is in the reset state is the spec's
decision D33, the values not given by its source D19 (log 4), that load resets D23 (log 20). -/
def Obligations.ReloadIsFreshLoad : Prop :=
  ∀ (bytes : List Byte) (s : State), bytes.length ≤ 3584 →
    Unchanged [.draws] (load bytes (State.resetWith s.params)).1 (load bytes (hostReset s)).1 ∧
    (load bytes (hostReset s)).1.mem = (load bytes (State.resetWith s.params)).1.mem

/-- set_key_down and set_key_up (60_exceptions.md R215): for 0 ≤ index ≤ 15 exactly that key is set or released; below 0 and, by the spec's
decision D22 (log 19), above 15 nothing changes. -/
def Obligations.KeyCallsSetOneKey : Prop :=
  ∀ (index : Int) (s : State),
    (0 ≤ index → index ≤ 15 →
      (∀ k : Nibble, (setKeyDown index s).keyDown k = if (k.toNat : Int) = index then true else s.keyDown k) ∧
      (∀ k : Nibble, (setKeyUp index s).keyDown k = if (k.toNat : Int) = index then false else s.keyDown k)) ∧
    (index < 0 ∨ 15 < index → setKeyDown index s = s ∧ setKeyUp index s = s) ∧
    Unchanged [.key] s (setKeyDown index s) ∧ Unchanged [.key] s (setKeyUp index s)

/-- The host's reads (43_display.md R160, 60_exceptions.md R212, R214): get answers the cell inside [0,64) x [0,32) and is refused outside (D29,
log 22); the sound signal is ST > 0 (D25, log 21); the fault status is the record. -/
def Obligations.HostReadsGridSoundAndFault : Prop :=
  ∀ (x y : Int) (s : State),
    (∀ (px : Fin 64) (py : Fin 32), x = px.val → y = py.val → gridGet x y s = .next (Grid.get s.grid px py)) ∧
    (x < 0 ∨ 64 ≤ x ∨ y < 0 ∨ 32 ≤ y → gridGet x y s = .refused (.gridOutOfRange x y)) ∧
    (soundActive s = true ↔ s.st ≠ 0) ∧ faultStatus s = s.fault

/-- Only reset or load clears the fault record (60_exceptions.md R205): every other call keeps it, a load refused as too large among them
(D23, log 20), and those two leave none. -/
def Obligations.FaultStaysUntilResetOrLoad : Prop :=
  (∀ (ipt : Nat) (c : HostCall) (s : State) (r : FaultRecord), s.fault = some r →
    c ≠ .reset → (∀ bytes : List Byte, bytes.length ≤ 3584 → c ≠ .load bytes) → (hostCall ipt c s).fault = some r) ∧
  (∀ (ipt : Nat) (s : State), (hostCall ipt .reset s).fault = none) ∧
  (∀ (ipt : Nat) (bytes : List Byte) (s : State), bytes.length ≤ 3584 → (hostCall ipt (.load bytes) s).fault = none)

/-! ### Memory -/

/-- A write changes the byte at mask12 of its address, seen at every alias of it, and no other (20_memory.md R51, R52; the reduction is D1,
log 5); the canonical form is kept (log 28). -/
def Obligations.WriteChangesOneByte : Prop :=
  ∀ (s : State) (a b : Word) (u : Byte),
    (a.toNat % 4096 = b.toNat % 4096 → (s.memWrite a u).memRead b = u) ∧
    (a.toNat % 4096 ≠ b.toNat % 4096 → (s.memWrite a u).memRead b = s.memRead b) ∧
    (Memory.wf s.params s.mem = true → Memory.wf s.params (s.memWrite a u).mem = true)

/-- A fetch at the top of memory takes its second byte from address 0 (20_memory.md R56). That the address of each byte is reduced by
mask12 before the fetch is the spec's decision D1 (log 5). -/
def Obligations.FetchWrapsAtTop : Prop :=
  ∀ s : State, s.pc.toNat % 4096 = 0xFFF → s.fetch = wordOfBytes (s.memRead 0xFFF) (s.memRead 0x000)

/-- A word stored at PC is what the very next step fetches and runs (20_memory.md R64, D20, log 18). Each address is reduced by mask12,
the spec's decision D1 (log 5). -/
def Obligations.StoredWordIsFetchedNext : Prop :=
  ∀ (s : State) (w : Word) (i : Instr), decodeWord w = .ok i →
    step (s.withFetchWord 16 w.toNat) = exec i (s.withFetchWord 16 w.toNat) ∧
    (∀ a : Word, mask12 a ≠ mask12 s.pc → mask12 a ≠ mask12 (s.pc + 1) → (s.withFetchWord 16 w.toNat).memRead a = s.memRead a) ∧
    Unchanged [.mem, .fault] s (s.withFetchWord 16 w.toNat)

/-! ### The invariant -/

/-- The invariant holds after reset and at construction with any FONT_BASE and FONT. The reset values other than PC and SP are the
spec's decision D19 (log 4). -/
def Obligations.InvariantHoldsAtReset : Prop := State.reset.Inv ∧ ∀ p : Config.Params, (State.resetWith p).Inv

/-- Every step keeps the invariant: SP legal, memory canonical, wait_key only at an FX0A, a fault record that describes the instruction
at PC (10_state.md R26, R32, R33, R39). That a fault keeps PC and writes the record only is the spec's decision D16 (log 15). -/
def Obligations.StepKeepsInvariant : Prop := ∀ s t : State, s.Inv → step s = .next t → t.Inv

/-- Every call of the host keeps the invariant, so it holds in every state a host can bring the machine to (60_exceptions.md R214). That
a fault keeps PC and writes the record only is the spec's decision D16 (log 15). -/
def Obligations.HostCallsKeepInvariant : Prop :=
  (∀ (ipt : Nat) (c : HostCall) (s : State), s.Inv → (hostCall ipt c s).Inv) ∧
  (∀ (ipt : Nat) (s : State), Reachable ipt s → s.Inv)
end

