-- ==== Sys2Proof/Laws/Decode.lean ====
section
/-! SUPPORT. The laws of the instruction fields (spec 30_encoding.md R72, R73): the fields of a word built by a format, a word put together
from its fields, a word and its two bytes. -/

namespace Sys2Proof

theorem getLsbD_formatA (op : Nibble) (addr : Addr) (i : Nat) :
    (formatA op addr).getLsbD i = if i < 12 then addr.getLsbD i else op.getLsbD (i - 12) :=
  BitVec.getLsbD_append

theorem getLsbD_formatXK (op x : Nibble) (kk : Byte) (i : Nat) :
    (formatXK op x kk).getLsbD i =
      if i < 8 then kk.getLsbD i else if i - 8 < 4 then x.getLsbD (i - 8) else op.getLsbD (i - 8 - 4) := by
  show (op ++ x ++ kk).getLsbD i = _
  rw [BitVec.getLsbD_append, BitVec.getLsbD_append]

theorem getLsbD_formatXYN (op x y n : Nibble) (i : Nat) :
    (formatXYN op x y n).getLsbD i =
      if i < 4 then n.getLsbD i else if i - 4 < 4 then y.getLsbD (i - 4)
      else if i - 4 - 4 < 4 then x.getLsbD (i - 4 - 4) else op.getLsbD (i - 4 - 4 - 4) := by
  show (op ++ x ++ y ++ n).getLsbD i = _
  rw [BitVec.getLsbD_append, BitVec.getLsbD_append, BitVec.getLsbD_append]

section
variable (op x y n : Nibble) (kk : Byte) (addr : Addr)

@[simp] theorem opOf_formatA : opOf (formatA op addr) = op := by
  apply BitVec.eq_of_getLsbD_eq; intro i hi
  simp only [opOf, BitVec.getLsbD_extractLsb', getLsbD_formatA, hi, decide_true, Bool.true_and]
  rw [if_neg (by omega)]; congr 1; omega

@[simp] theorem addrOf_formatA : addrOf (formatA op addr) = addr := by
  apply BitVec.eq_of_getLsbD_eq; intro i hi
  simp only [addrOf, BitVec.getLsbD_extractLsb', getLsbD_formatA, hi, decide_true, Bool.true_and]
  rw [if_pos (by omega)]; congr 1; omega

@[simp] theorem opOf_formatXK : opOf (formatXK op x kk) = op := by
  apply BitVec.eq_of_getLsbD_eq; intro i hi
  simp only [opOf, BitVec.getLsbD_extractLsb', getLsbD_formatXK, hi, decide_true, Bool.true_and]
  rw [if_neg (by omega), if_neg (by omega)]; congr 1; omega

@[simp] theorem xOf_formatXK : xOf (formatXK op x kk) = x := by
  apply BitVec.eq_of_getLsbD_eq; intro i hi
  simp only [xOf, BitVec.getLsbD_extractLsb', getLsbD_formatXK, hi, decide_true, Bool.true_and]
  rw [if_neg (by omega), if_pos (by omega)]; congr 1; omega

@[simp] theorem kkOf_formatXK : kkOf (formatXK op x kk) = kk := by
  apply BitVec.eq_of_getLsbD_eq; intro i hi
  simp only [kkOf, BitVec.getLsbD_extractLsb', getLsbD_formatXK, hi, decide_true, Bool.true_and]
  rw [if_pos (by omega)]; congr 1; omega

@[simp] theorem opOf_formatXYN : opOf (formatXYN op x y n) = op := by
  apply BitVec.eq_of_getLsbD_eq; intro i hi
  simp only [opOf, BitVec.getLsbD_extractLsb', getLsbD_formatXYN, hi, decide_true, Bool.true_and]
  rw [if_neg (by omega), if_neg (by omega), if_neg (by omega)]; congr 1; omega

@[simp] theorem xOf_formatXYN : xOf (formatXYN op x y n) = x := by
  apply BitVec.eq_of_getLsbD_eq; intro i hi
  simp only [xOf, BitVec.getLsbD_extractLsb', getLsbD_formatXYN, hi, decide_true, Bool.true_and]
  rw [if_neg (by omega), if_neg (by omega), if_pos (by omega)]; congr 1; omega

@[simp] theorem yOf_formatXYN : yOf (formatXYN op x y n) = y := by
  apply BitVec.eq_of_getLsbD_eq; intro i hi
  simp only [yOf, BitVec.getLsbD_extractLsb', getLsbD_formatXYN, hi, decide_true, Bool.true_and]
  rw [if_neg (by omega), if_pos (by omega)]; congr 1; omega

@[simp] theorem nOf_formatXYN : nOf (formatXYN op x y n) = n := by
  apply BitVec.eq_of_getLsbD_eq; intro i hi
  simp only [nOf, BitVec.getLsbD_extractLsb', getLsbD_formatXYN, hi, decide_true, Bool.true_and]
  rw [if_pos (by omega)]; congr 1; omega

end

section
variable (w : Word)

/-- A word is its fields op and addr. -/
theorem formatA_fields : formatA (opOf w) (addrOf w) = w := by
  apply BitVec.eq_of_getLsbD_eq; intro i hi
  rw [getLsbD_formatA]
  split
  · rename_i h; simp only [addrOf, BitVec.getLsbD_extractLsb', h, decide_true, Bool.true_and]; congr 1; omega
  · simp only [opOf, BitVec.getLsbD_extractLsb', show i - 12 < 4 by omega, decide_true, Bool.true_and]; congr 1; omega

/-- A word is its fields op, x and kk. -/
theorem formatXK_fields : formatXK (opOf w) (xOf w) (kkOf w) = w := by
  apply BitVec.eq_of_getLsbD_eq; intro i hi
  rw [getLsbD_formatXK]
  split
  · rename_i h; simp only [kkOf, BitVec.getLsbD_extractLsb', h, decide_true, Bool.true_and]; congr 1; omega
  · split
    · rename_i h; simp only [xOf, BitVec.getLsbD_extractLsb', h, decide_true, Bool.true_and]; congr 1; omega
    · simp only [opOf, BitVec.getLsbD_extractLsb', show i - 8 - 4 < 4 by omega, decide_true, Bool.true_and]; congr 1; omega

/-- A word is its fields op, x, y and n. -/
theorem formatXYN_fields : formatXYN (opOf w) (xOf w) (yOf w) (nOf w) = w := by
  apply BitVec.eq_of_getLsbD_eq; intro i hi
  rw [getLsbD_formatXYN]
  split
  · rename_i h; simp only [nOf, BitVec.getLsbD_extractLsb', h, decide_true, Bool.true_and]; congr 1; omega
  · split
    · rename_i h; simp only [yOf, BitVec.getLsbD_extractLsb', h, decide_true, Bool.true_and]; congr 1; omega
    · split
      · rename_i h; simp only [xOf, BitVec.getLsbD_extractLsb', h, decide_true, Bool.true_and]; congr 1; omega
      · simp only [opOf, BitVec.getLsbD_extractLsb', show i - 4 - 4 - 4 < 4 by omega, decide_true, Bool.true_and]
        congr 1; omega

theorem getLsbD_wordOfBytes (hi lo : Byte) (i : Nat) :
    (wordOfBytes hi lo).getLsbD i = if i < 8 then lo.getLsbD i else hi.getLsbD (i - 8) :=
  BitVec.getLsbD_append

/-- A word is its two bytes. -/
@[simp] theorem wordOfBytes_bytes : wordOfBytes (hiByte w) (loByte w) = w := by
  apply BitVec.eq_of_getLsbD_eq; intro i hi
  rw [getLsbD_wordOfBytes]
  split
  · rename_i h; simp only [loByte, BitVec.getLsbD_extractLsb', h, decide_true, Bool.true_and]; congr 1; omega
  · simp only [hiByte, BitVec.getLsbD_extractLsb', show i - 8 < 8 by omega, decide_true, Bool.true_and]; congr 1; omega

/-- The decoder on the two bytes of a word is the decoder on the word, with nothing left over. -/
theorem decodeBytes_bytes (w : Word) (rest : List Byte) :
    decodeBytes (hiByte w :: loByte w :: rest) = (decodeWord w).map (·, rest) := by
  simp only [decodeBytes, wordOfBytes_bytes]
  cases decodeWord w <;> rfl

end

end Sys2Proof
end

