-- ==== Sys2Proof/Laws/State.lean ====
section
/-! SUPPORT. One lemma per field per update of the state, so that no proof unfolds a record update: for each shared operation, the
fields it leaves alone and the field it sets. -/

namespace Sys2Proof.Machine

section
variable (s : State) (a t w op : Word) (u r f : Byte) (x : Nibble) (c : Bool) (kind : FaultKind)

@[simp] theorem State.goto_pc : (s.goto t).pc = t := rfl
@[simp] theorem State.goto_v : (s.goto t).v = s.v := rfl
@[simp] theorem State.goto_i : (s.goto t).i = s.i := rfl
@[simp] theorem State.goto_sp : (s.goto t).sp = s.sp := rfl
@[simp] theorem State.goto_stack : (s.goto t).stack = s.stack := rfl
@[simp] theorem State.goto_dt : (s.goto t).dt = s.dt := rfl
@[simp] theorem State.goto_st : (s.goto t).st = s.st := rfl
@[simp] theorem State.goto_key : (s.goto t).key = s.key := rfl
@[simp] theorem State.goto_grid : (s.goto t).grid = s.grid := rfl
@[simp] theorem State.goto_mem : (s.goto t).mem = s.mem := rfl
@[simp] theorem State.goto_waitKey : (s.goto t).waitKey = s.waitKey := rfl
@[simp] theorem State.goto_fault : (s.goto t).fault = s.fault := rfl
@[simp] theorem State.goto_draws : (s.goto t).draws = s.draws := rfl
@[simp] theorem State.goto_params : (s.goto t).params = s.params := rfl

@[simp] theorem State.advance_pc : s.advance.pc = s.pc + 2 := rfl
@[simp] theorem State.advance_v : s.advance.v = s.v := rfl
@[simp] theorem State.advance_i : s.advance.i = s.i := rfl
@[simp] theorem State.advance_sp : s.advance.sp = s.sp := rfl
@[simp] theorem State.advance_stack : s.advance.stack = s.stack := rfl
@[simp] theorem State.advance_dt : s.advance.dt = s.dt := rfl
@[simp] theorem State.advance_st : s.advance.st = s.st := rfl
@[simp] theorem State.advance_key : s.advance.key = s.key := rfl
@[simp] theorem State.advance_grid : s.advance.grid = s.grid := rfl
@[simp] theorem State.advance_mem : s.advance.mem = s.mem := rfl
@[simp] theorem State.advance_waitKey : s.advance.waitKey = s.waitKey := rfl
@[simp] theorem State.advance_fault : s.advance.fault = s.fault := rfl
@[simp] theorem State.advance_draws : s.advance.draws = s.draws := rfl
@[simp] theorem State.advance_params : s.advance.params = s.params := rfl

@[simp] theorem State.skipIf_pc : (s.skipIf c).pc = if c then s.pc + 4 else s.pc + 2 := rfl
@[simp] theorem State.skipIf_v : (s.skipIf c).v = s.v := rfl
@[simp] theorem State.skipIf_i : (s.skipIf c).i = s.i := rfl
@[simp] theorem State.skipIf_sp : (s.skipIf c).sp = s.sp := rfl
@[simp] theorem State.skipIf_stack : (s.skipIf c).stack = s.stack := rfl
@[simp] theorem State.skipIf_dt : (s.skipIf c).dt = s.dt := rfl
@[simp] theorem State.skipIf_st : (s.skipIf c).st = s.st := rfl
@[simp] theorem State.skipIf_key : (s.skipIf c).key = s.key := rfl
@[simp] theorem State.skipIf_grid : (s.skipIf c).grid = s.grid := rfl
@[simp] theorem State.skipIf_mem : (s.skipIf c).mem = s.mem := rfl
@[simp] theorem State.skipIf_waitKey : (s.skipIf c).waitKey = s.waitKey := rfl
@[simp] theorem State.skipIf_fault : (s.skipIf c).fault = s.fault := rfl
@[simp] theorem State.skipIf_draws : (s.skipIf c).draws = s.draws := rfl
@[simp] theorem State.skipIf_params : (s.skipIf c).params = s.params := rfl

@[simp] theorem State.wait_waitKey : s.wait.waitKey = true := rfl
@[simp] theorem State.wait_v : s.wait.v = s.v := rfl
@[simp] theorem State.wait_i : s.wait.i = s.i := rfl
@[simp] theorem State.wait_pc : s.wait.pc = s.pc := rfl
@[simp] theorem State.wait_sp : s.wait.sp = s.sp := rfl
@[simp] theorem State.wait_stack : s.wait.stack = s.stack := rfl
@[simp] theorem State.wait_dt : s.wait.dt = s.dt := rfl
@[simp] theorem State.wait_st : s.wait.st = s.st := rfl
@[simp] theorem State.wait_key : s.wait.key = s.key := rfl
@[simp] theorem State.wait_grid : s.wait.grid = s.grid := rfl
@[simp] theorem State.wait_mem : s.wait.mem = s.mem := rfl
@[simp] theorem State.wait_fault : s.wait.fault = s.fault := rfl
@[simp] theorem State.wait_draws : s.wait.draws = s.draws := rfl
@[simp] theorem State.wait_params : s.wait.params = s.params := rfl

@[simp] theorem State.raiseFault_fault :
    (s.raiseFault kind op).fault = some { kind := kind, pc := s.pc, opcode := op } := rfl
@[simp] theorem State.raiseFault_v : (s.raiseFault kind op).v = s.v := rfl
@[simp] theorem State.raiseFault_i : (s.raiseFault kind op).i = s.i := rfl
@[simp] theorem State.raiseFault_pc : (s.raiseFault kind op).pc = s.pc := rfl
@[simp] theorem State.raiseFault_sp : (s.raiseFault kind op).sp = s.sp := rfl
@[simp] theorem State.raiseFault_stack : (s.raiseFault kind op).stack = s.stack := rfl
@[simp] theorem State.raiseFault_dt : (s.raiseFault kind op).dt = s.dt := rfl
@[simp] theorem State.raiseFault_st : (s.raiseFault kind op).st = s.st := rfl
@[simp] theorem State.raiseFault_key : (s.raiseFault kind op).key = s.key := rfl
@[simp] theorem State.raiseFault_grid : (s.raiseFault kind op).grid = s.grid := rfl
@[simp] theorem State.raiseFault_mem : (s.raiseFault kind op).mem = s.mem := rfl
@[simp] theorem State.raiseFault_waitKey : (s.raiseFault kind op).waitKey = s.waitKey := rfl
@[simp] theorem State.raiseFault_draws : (s.raiseFault kind op).draws = s.draws := rfl
@[simp] theorem State.raiseFault_params : (s.raiseFault kind op).params = s.params := rfl

@[simp] theorem State.memWrite_v : (s.memWrite a u).v = s.v := rfl
@[simp] theorem State.memWrite_i : (s.memWrite a u).i = s.i := rfl
@[simp] theorem State.memWrite_pc : (s.memWrite a u).pc = s.pc := rfl
@[simp] theorem State.memWrite_sp : (s.memWrite a u).sp = s.sp := rfl
@[simp] theorem State.memWrite_stack : (s.memWrite a u).stack = s.stack := rfl
@[simp] theorem State.memWrite_dt : (s.memWrite a u).dt = s.dt := rfl
@[simp] theorem State.memWrite_st : (s.memWrite a u).st = s.st := rfl
@[simp] theorem State.memWrite_key : (s.memWrite a u).key = s.key := rfl
@[simp] theorem State.memWrite_grid : (s.memWrite a u).grid = s.grid := rfl
@[simp] theorem State.memWrite_mem : (s.memWrite a u).mem = Memory.write s.params s.mem (mask12 a).toNat u := rfl
@[simp] theorem State.memWrite_waitKey : (s.memWrite a u).waitKey = s.waitKey := rfl
@[simp] theorem State.memWrite_fault : (s.memWrite a u).fault = s.fault := rfl
@[simp] theorem State.memWrite_draws : (s.memWrite a u).draws = s.draws := rfl
@[simp] theorem State.memWrite_params : (s.memWrite a u).params = s.params := rfl

@[simp] theorem State.writeV_v : (s.writeV x u).v = s.v.set x.toNat u := rfl
@[simp] theorem State.writeV_i : (s.writeV x u).i = s.i := rfl
@[simp] theorem State.writeV_pc : (s.writeV x u).pc = s.pc := rfl
@[simp] theorem State.writeV_sp : (s.writeV x u).sp = s.sp := rfl
@[simp] theorem State.writeV_stack : (s.writeV x u).stack = s.stack := rfl
@[simp] theorem State.writeV_dt : (s.writeV x u).dt = s.dt := rfl
@[simp] theorem State.writeV_st : (s.writeV x u).st = s.st := rfl
@[simp] theorem State.writeV_key : (s.writeV x u).key = s.key := rfl
@[simp] theorem State.writeV_grid : (s.writeV x u).grid = s.grid := rfl
@[simp] theorem State.writeV_mem : (s.writeV x u).mem = s.mem := rfl
@[simp] theorem State.writeV_waitKey : (s.writeV x u).waitKey = s.waitKey := rfl
@[simp] theorem State.writeV_fault : (s.writeV x u).fault = s.fault := rfl
@[simp] theorem State.writeV_draws : (s.writeV x u).draws = s.draws := rfl
@[simp] theorem State.writeV_params : (s.writeV x u).params = s.params := rfl

@[simp] theorem State.writeResultFlag_i : (s.writeResultFlag x r f).i = s.i := rfl
@[simp] theorem State.writeResultFlag_pc : (s.writeResultFlag x r f).pc = s.pc := rfl
@[simp] theorem State.writeResultFlag_sp : (s.writeResultFlag x r f).sp = s.sp := rfl
@[simp] theorem State.writeResultFlag_stack : (s.writeResultFlag x r f).stack = s.stack := rfl
@[simp] theorem State.writeResultFlag_dt : (s.writeResultFlag x r f).dt = s.dt := rfl
@[simp] theorem State.writeResultFlag_st : (s.writeResultFlag x r f).st = s.st := rfl
@[simp] theorem State.writeResultFlag_key : (s.writeResultFlag x r f).key = s.key := rfl
@[simp] theorem State.writeResultFlag_grid : (s.writeResultFlag x r f).grid = s.grid := rfl
@[simp] theorem State.writeResultFlag_mem : (s.writeResultFlag x r f).mem = s.mem := rfl
@[simp] theorem State.writeResultFlag_waitKey : (s.writeResultFlag x r f).waitKey = s.waitKey := rfl
@[simp] theorem State.writeResultFlag_fault : (s.writeResultFlag x r f).fault = s.fault := rfl
@[simp] theorem State.writeResultFlag_draws : (s.writeResultFlag x r f).draws = s.draws := rfl
@[simp] theorem State.writeResultFlag_params : (s.writeResultFlag x r f).params = s.params := rfl

@[simp] theorem State.timersDown_dt : s.timersDown.dt = timerDown s.dt := rfl
@[simp] theorem State.timersDown_st : s.timersDown.st = timerDown s.st := rfl
@[simp] theorem State.timersDown_v : s.timersDown.v = s.v := rfl
@[simp] theorem State.timersDown_i : s.timersDown.i = s.i := rfl
@[simp] theorem State.timersDown_pc : s.timersDown.pc = s.pc := rfl
@[simp] theorem State.timersDown_sp : s.timersDown.sp = s.sp := rfl
@[simp] theorem State.timersDown_stack : s.timersDown.stack = s.stack := rfl
@[simp] theorem State.timersDown_key : s.timersDown.key = s.key := rfl
@[simp] theorem State.timersDown_grid : s.timersDown.grid = s.grid := rfl
@[simp] theorem State.timersDown_mem : s.timersDown.mem = s.mem := rfl
@[simp] theorem State.timersDown_waitKey : s.timersDown.waitKey = s.waitKey := rfl
@[simp] theorem State.timersDown_fault : s.timersDown.fault = s.fault := rfl
@[simp] theorem State.timersDown_draws : s.timersDown.draws = s.draws := rfl
@[simp] theorem State.timersDown_params : s.timersDown.params = s.params := rfl

end

section
variable (s : State) (w : Word)

@[simp] theorem State.push_sp (h : s.sp.toNat < 16) : (s.push w h).sp = s.sp + 1 := rfl
@[simp] theorem State.push_stack (h : s.sp.toNat < 16) : (s.push w h).stack = s.stack.set s.sp.toNat w h := rfl
@[simp] theorem State.push_v (h : s.sp.toNat < 16) : (s.push w h).v = s.v := rfl
@[simp] theorem State.push_i (h : s.sp.toNat < 16) : (s.push w h).i = s.i := rfl
@[simp] theorem State.push_pc (h : s.sp.toNat < 16) : (s.push w h).pc = s.pc := rfl
@[simp] theorem State.push_dt (h : s.sp.toNat < 16) : (s.push w h).dt = s.dt := rfl
@[simp] theorem State.push_st (h : s.sp.toNat < 16) : (s.push w h).st = s.st := rfl
@[simp] theorem State.push_key (h : s.sp.toNat < 16) : (s.push w h).key = s.key := rfl
@[simp] theorem State.push_grid (h : s.sp.toNat < 16) : (s.push w h).grid = s.grid := rfl
@[simp] theorem State.push_mem (h : s.sp.toNat < 16) : (s.push w h).mem = s.mem := rfl
@[simp] theorem State.push_waitKey (h : s.sp.toNat < 16) : (s.push w h).waitKey = s.waitKey := rfl
@[simp] theorem State.push_fault (h : s.sp.toNat < 16) : (s.push w h).fault = s.fault := rfl
@[simp] theorem State.push_draws (h : s.sp.toNat < 16) : (s.push w h).draws = s.draws := rfl
@[simp] theorem State.push_params (h : s.sp.toNat < 16) : (s.push w h).params = s.params := rfl

@[simp] theorem State.popGoto_sp (h : s.sp.toNat - 1 < 16) : (s.popGoto h).sp = s.sp - 1 := rfl
@[simp] theorem State.popGoto_pc (h : s.sp.toNat - 1 < 16) : (s.popGoto h).pc = s.stack[s.sp.toNat - 1] := rfl
@[simp] theorem State.popGoto_v (h : s.sp.toNat - 1 < 16) : (s.popGoto h).v = s.v := rfl
@[simp] theorem State.popGoto_i (h : s.sp.toNat - 1 < 16) : (s.popGoto h).i = s.i := rfl
@[simp] theorem State.popGoto_stack (h : s.sp.toNat - 1 < 16) : (s.popGoto h).stack = s.stack := rfl
@[simp] theorem State.popGoto_dt (h : s.sp.toNat - 1 < 16) : (s.popGoto h).dt = s.dt := rfl
@[simp] theorem State.popGoto_st (h : s.sp.toNat - 1 < 16) : (s.popGoto h).st = s.st := rfl
@[simp] theorem State.popGoto_key (h : s.sp.toNat - 1 < 16) : (s.popGoto h).key = s.key := rfl
@[simp] theorem State.popGoto_grid (h : s.sp.toNat - 1 < 16) : (s.popGoto h).grid = s.grid := rfl
@[simp] theorem State.popGoto_mem (h : s.sp.toNat - 1 < 16) : (s.popGoto h).mem = s.mem := rfl
@[simp] theorem State.popGoto_waitKey (h : s.sp.toNat - 1 < 16) : (s.popGoto h).waitKey = s.waitKey := rfl
@[simp] theorem State.popGoto_fault (h : s.sp.toNat - 1 < 16) : (s.popGoto h).fault = s.fault := rfl
@[simp] theorem State.popGoto_draws (h : s.sp.toNat - 1 < 16) : (s.popGoto h).draws = s.draws := rfl
@[simp] theorem State.popGoto_params (h : s.sp.toNat - 1 < 16) : (s.popGoto h).params = s.params := rfl

end

/-- A sequence of stores changes memory and nothing else. -/
theorem State.storeFrom_eq (s : State) (base : Word) (k : Nat) (us : List Byte) :
    s.storeFrom base k us = { s with mem := (s.storeFrom base k us).mem } := by
  induction us generalizing s k with
  | nil => rfl
  | cons u us ih => rw [State.storeFrom]; rw [ih]; rfl

section
variable (s : State) (base : Word) (k : Nat) (us : List Byte)

@[simp] theorem State.storeFrom_v : (s.storeFrom base k us).v = s.v := by rw [State.storeFrom_eq]
@[simp] theorem State.storeFrom_i : (s.storeFrom base k us).i = s.i := by rw [State.storeFrom_eq]
@[simp] theorem State.storeFrom_pc : (s.storeFrom base k us).pc = s.pc := by rw [State.storeFrom_eq]
@[simp] theorem State.storeFrom_sp : (s.storeFrom base k us).sp = s.sp := by rw [State.storeFrom_eq]
@[simp] theorem State.storeFrom_stack : (s.storeFrom base k us).stack = s.stack := by rw [State.storeFrom_eq]
@[simp] theorem State.storeFrom_dt : (s.storeFrom base k us).dt = s.dt := by rw [State.storeFrom_eq]
@[simp] theorem State.storeFrom_st : (s.storeFrom base k us).st = s.st := by rw [State.storeFrom_eq]
@[simp] theorem State.storeFrom_key : (s.storeFrom base k us).key = s.key := by rw [State.storeFrom_eq]
@[simp] theorem State.storeFrom_grid : (s.storeFrom base k us).grid = s.grid := by rw [State.storeFrom_eq]
@[simp] theorem State.storeFrom_waitKey : (s.storeFrom base k us).waitKey = s.waitKey := by rw [State.storeFrom_eq]
@[simp] theorem State.storeFrom_fault : (s.storeFrom base k us).fault = s.fault := by rw [State.storeFrom_eq]
@[simp] theorem State.storeFrom_draws : (s.storeFrom base k us).draws = s.draws := by rw [State.storeFrom_eq]
@[simp] theorem State.storeFrom_params : (s.storeFrom base k us).params = s.params := by rw [State.storeFrom_eq]

end

/-- Loading registers changes the registers and nothing else. -/
theorem State.loadRegs_eq (s : State) (n : Nat) : s.loadRegs n = { s with v := (s.loadRegs n).v } := by
  induction n with
  | zero => rfl
  | succ n ih => simp only [State.loadRegs]; rw [ih]; rfl

section
variable (s : State) (n : Nat)

@[simp] theorem State.loadRegs_i : (s.loadRegs n).i = s.i := by rw [State.loadRegs_eq]
@[simp] theorem State.loadRegs_pc : (s.loadRegs n).pc = s.pc := by rw [State.loadRegs_eq]
@[simp] theorem State.loadRegs_sp : (s.loadRegs n).sp = s.sp := by rw [State.loadRegs_eq]
@[simp] theorem State.loadRegs_stack : (s.loadRegs n).stack = s.stack := by rw [State.loadRegs_eq]
@[simp] theorem State.loadRegs_dt : (s.loadRegs n).dt = s.dt := by rw [State.loadRegs_eq]
@[simp] theorem State.loadRegs_st : (s.loadRegs n).st = s.st := by rw [State.loadRegs_eq]
@[simp] theorem State.loadRegs_key : (s.loadRegs n).key = s.key := by rw [State.loadRegs_eq]
@[simp] theorem State.loadRegs_grid : (s.loadRegs n).grid = s.grid := by rw [State.loadRegs_eq]
@[simp] theorem State.loadRegs_mem : (s.loadRegs n).mem = s.mem := by rw [State.loadRegs_eq]
@[simp] theorem State.loadRegs_waitKey : (s.loadRegs n).waitKey = s.waitKey := by rw [State.loadRegs_eq]
@[simp] theorem State.loadRegs_fault : (s.loadRegs n).fault = s.fault := by rw [State.loadRegs_eq]
@[simp] theorem State.loadRegs_draws : (s.loadRegs n).draws = s.draws := by rw [State.loadRegs_eq]
@[simp] theorem State.loadRegs_params : (s.loadRegs n).params = s.params := by rw [State.loadRegs_eq]

end

/-! reset() gives every field what construction gives it, but for the draw counter. -/

section
variable (s : State)

@[simp] theorem hostReset_v : (hostReset s).v = (State.resetWith s.params).v := rfl
@[simp] theorem hostReset_i : (hostReset s).i = (State.resetWith s.params).i := rfl
@[simp] theorem hostReset_pc : (hostReset s).pc = (State.resetWith s.params).pc := rfl
@[simp] theorem hostReset_sp : (hostReset s).sp = (State.resetWith s.params).sp := rfl
@[simp] theorem hostReset_stack : (hostReset s).stack = (State.resetWith s.params).stack := rfl
@[simp] theorem hostReset_dt : (hostReset s).dt = (State.resetWith s.params).dt := rfl
@[simp] theorem hostReset_st : (hostReset s).st = (State.resetWith s.params).st := rfl
@[simp] theorem hostReset_key : (hostReset s).key = (State.resetWith s.params).key := rfl
@[simp] theorem hostReset_grid : (hostReset s).grid = (State.resetWith s.params).grid := rfl
@[simp] theorem hostReset_mem : (hostReset s).mem = (State.resetWith s.params).mem := rfl
@[simp] theorem hostReset_waitKey : (hostReset s).waitKey = (State.resetWith s.params).waitKey := rfl
@[simp] theorem hostReset_fault : (hostReset s).fault = (State.resetWith s.params).fault := rfl
@[simp] theorem hostReset_draws : (hostReset s).draws = s.draws := rfl
@[simp] theorem hostReset_params : (hostReset s).params = s.params := rfl
@[simp] theorem State.resetWith_params (p : Config.Params) : (State.resetWith p).params = p := rfl
@[simp] theorem State.resetWith_mem (p : Config.Params) : (State.resetWith p).mem = [] := rfl
@[simp] theorem State.resetWith_fault (p : Config.Params) : (State.resetWith p).fault = none := rfl
@[simp] theorem State.resetWith_waitKey (p : Config.Params) : (State.resetWith p).waitKey = false := rfl

end

/-- A read of memory looks at memory and the parameters alone. -/
theorem State.memRead_congr {s t : State} (h : t.mem = s.mem) (hp : t.params = s.params) (a : Word) : t.memRead a = s.memRead a := by
  simp only [State.memRead, h, hp]

/-- A fetch looks at memory, the parameters and PC alone. -/
theorem State.fetch_congr {s t : State} (hm : t.mem = s.mem) (hp : t.params = s.params) (hpc : t.pc = s.pc) : t.fetch = s.fetch := by
  simp only [State.fetch, State.memRead, hm, hp, hpc]

/-- A register read looks at the registers alone. -/
theorem State.readV_congr {s t : State} (h : t.v = s.v) (x : Nibble) : t.readV x = s.readV x := by
  simp only [State.readV, h]

/-- A frame from equal fields: it is enough that every field outside the list, and the parameters, are the same. -/
theorem unchanged_of_fields {but : List Part} {s t : State}
  (v : Part.regs ∉ but → t.v = s.v) (i : Part.i ∉ but → t.i = s.i) (pc : Part.pc ∉ but → t.pc = s.pc)
  (sp : Part.sp ∉ but → t.sp = s.sp) (stack : Part.stack ∉ but → t.stack = s.stack)
  (dt : Part.dt ∉ but → t.dt = s.dt) (st : Part.st ∉ but → t.st = s.st) (key : Part.key ∉ but → t.key = s.key)
  (grid : Part.grid ∉ but → t.grid = s.grid) (mem : Part.mem ∉ but → t.mem = s.mem)
  (waitKey : Part.waitKey ∉ but → t.waitKey = s.waitKey) (fault : Part.fault ∉ but → t.fault = s.fault)
  (draws : Part.draws ∉ but → t.draws = s.draws) (params : t.params = s.params) : Unchanged but s t := by
  intro p hp
  cases p <;> simp only [Part.Same]
  · exact fun x => State.readV_congr (v hp) x
  · exact i hp
  · exact pc hp
  · exact sp hp
  · exact stack hp
  · exact dt hp
  · exact st hp
  · exact key hp
  · exact grid hp
  · exact fun a => State.memRead_congr (mem hp) params a
  · exact waitKey hp
  · exact fault hp
  · exact draws hp
  · exact params

end Sys2Proof.Machine
end

