-- ==== Sys2Proof/Laws/Memory.lean ====
section
/-! SUPPORT. The laws of memory (spec 20_memory.md R51, R52): read after write, the canonical form is kept, and what a sequence of stores
does. -/

namespace Sys2Proof.Machine

section
variable {p : Config.Params}

theorem Memory.read_insert (m : Memory) (a b : Nat) (u : Byte) :
    Memory.read p (Memory.insert m a u) b = if b = a then u else Memory.read p m b := by
  induction m with
  | nil => rfl
  | cons c m ih =>
    obtain ⟨d, w⟩ := c
    simp only [Memory.insert]
    split
    · simp [Memory.read]
    · split
      · subst_vars; by_cases h : b = d <;> simp [Memory.read, h]
      · rename_i h₁ h₂
        by_cases h : b = d
        · subst h; simp [Memory.read, Ne.symm h₂]
        · simp [Memory.read, h, ih]

theorem Memory.read_erase (m : Memory) (a b : Nat) :
    Memory.read p (Memory.erase m a) b = if b = a then Memory.unlisted p a else Memory.read p m b := by
  induction m with
  | nil => by_cases h : b = a <;> simp [Memory.erase, Memory.read, h]
  | cons c m ih =>
    obtain ⟨d, w⟩ := c
    simp only [Memory.erase]
    split
    · subst_vars; rw [ih]; by_cases h : b = d <;> simp [Memory.read, h]
    · rename_i h₂
      by_cases h : b = d
      · subst h; simp [Memory.read, Ne.symm h₂]
      · simp [Memory.read, h, ih]

/-- Read after write: the written address gives the byte written, every other address what it gave before (R52). -/
theorem Memory.read_write (m : Memory) (a b : Nat) (u : Byte) :
    Memory.read p (Memory.write p m a u) b = if b = a then u else Memory.read p m b := by
  unfold Memory.write
  split
  · rename_i h; rw [Memory.read_erase, h]
  · exact Memory.read_insert m a b u

theorem Memory.wfFrom_mono {lo lo' : Nat} {m : Memory} (h : Memory.wfFrom p lo m = true) (hl : lo' ≤ lo) :
    Memory.wfFrom p lo' m = true := by
  cases m with
  | nil => rfl
  | cons c m =>
    obtain ⟨d, w⟩ := c
    simp only [Memory.wfFrom, Bool.and_eq_true, decide_eq_true_eq] at h ⊢
    exact ⟨⟨⟨hl.trans h.1.1.1, h.1.1.2⟩, h.1.2⟩, h.2⟩

theorem Memory.wfFrom_erase {lo : Nat} {m : Memory} (a : Nat) (h : Memory.wfFrom p lo m = true) :
    Memory.wfFrom p lo (Memory.erase m a) = true := by
  induction m generalizing lo with
  | nil => rfl
  | cons c m ih =>
    obtain ⟨d, w⟩ := c
    simp only [Memory.wfFrom, Bool.and_eq_true, decide_eq_true_eq] at h
    simp only [Memory.erase]
    split
    · exact ih (Memory.wfFrom_mono h.2 (h.1.1.1.trans d.le_succ))
    · simp only [Memory.wfFrom, Bool.and_eq_true, decide_eq_true_eq]
      exact ⟨h.1, ih h.2⟩

theorem Memory.wfFrom_insert {lo : Nat} {m : Memory} {a : Nat} {u : Byte} (h : Memory.wfFrom p lo m = true)
    (hlo : lo ≤ a) (ha : a < Config.memSize) (hu : u ≠ Memory.unlisted p a) :
    Memory.wfFrom p lo (Memory.insert m a u) = true := by
  induction m generalizing lo with
  | nil => simp [Memory.insert, Memory.wfFrom, hlo, ha, hu]
  | cons c m ih =>
    obtain ⟨d, w⟩ := c
    have h' := h
    simp only [Memory.wfFrom, Bool.and_eq_true, decide_eq_true_eq] at h
    simp only [Memory.insert]
    split
    · rename_i had
      simp only [Memory.wfFrom, Bool.and_eq_true, decide_eq_true_eq]
      exact ⟨⟨⟨hlo, ha⟩, hu⟩, ⟨⟨had, h.1.1.2⟩, h.1.2⟩, h.2⟩
    · split
      · rename_i had
        subst had
        simp only [Memory.wfFrom, Bool.and_eq_true, decide_eq_true_eq]
        exact ⟨⟨⟨hlo, ha⟩, hu⟩, h.2⟩
      · simp only [Memory.wfFrom, Bool.and_eq_true, decide_eq_true_eq]
        exact ⟨h.1, ih h.2 (by omega)⟩

/-- A write inside the address space keeps the canonical form. -/
theorem Memory.wf_write {m : Memory} {a : Nat} (u : Byte) (h : Memory.wf p m = true) (ha : a < Config.memSize) :
    Memory.wf p (Memory.write p m a u) = true := by
  unfold Memory.wf Memory.write at *
  split
  · exact Memory.wfFrom_erase a h
  · exact Memory.wfFrom_insert h a.zero_le ha ‹_›

/-- Two canonical memories that read alike everywhere are the same list. -/
theorem Memory.read_below {lo : Nat} {m : Memory} (h : Memory.wfFrom p lo m = true) {a : Nat} (ha : a < lo) :
    Memory.read p m a = Memory.unlisted p a := by
  induction m generalizing lo with
  | nil => rfl
  | cons c m ih =>
    obtain ⟨d, w⟩ := c
    simp only [Memory.wfFrom, Bool.and_eq_true, decide_eq_true_eq] at h
    have : a ≠ d := by omega
    simp only [Memory.read, this, if_false]
    exact ih h.2 (by omega)

theorem Memory.eq_of_read_eq {lo : Nat} {m n : Memory} (hm : Memory.wfFrom p lo m = true) (hn : Memory.wfFrom p lo n = true)
    (h : ∀ a, Memory.read p m a = Memory.read p n a) : m = n := by
  induction m generalizing lo n with
  | nil =>
    cases n with
    | nil => rfl
    | cons c n =>
      obtain ⟨d, w⟩ := c
      simp only [Memory.wfFrom, Bool.and_eq_true, decide_eq_true_eq] at hn
      exact absurd (by simpa [Memory.read] using (h d).symm) hn.1.2
  | cons c m ih =>
    obtain ⟨d, w⟩ := c
    have hm' := hm
    simp only [Memory.wfFrom, Bool.and_eq_true, decide_eq_true_eq] at hm
    cases n with
    | nil => exact absurd (by simpa [Memory.read] using h d) hm.1.2
    | cons c' n =>
      obtain ⟨d', w'⟩ := c'
      have hn' := hn
      simp only [Memory.wfFrom, Bool.and_eq_true, decide_eq_true_eq] at hn
      have hd : d = d' := by
        rcases Nat.lt_trichotomy d d' with hlt | heq | hgt
        · have e := h d
          have ne : d ≠ d' := by omega
          simp only [Memory.read, if_true, ne, if_false] at e
          rw [Memory.read_below hn.2 (by omega)] at e
          exact absurd e hm.1.2
        · exact heq
        · have e := h d'
          have ne : d' ≠ d := by omega
          simp only [Memory.read, if_true, ne, if_false] at e
          rw [Memory.read_below hm.2 (by omega)] at e
          exact absurd e.symm hn.1.2
      subst hd
      have hw : w = w' := by simpa [Memory.read] using h d
      subst hw
      rw [ih hm.2 hn.2 (fun a => ?_)]
      rcases Nat.lt_or_ge d a with hlt | hge
      · have e := h a
        have ne : a ≠ d := by omega
        simpa only [Memory.read, ne, if_false] using e
      · rw [Memory.read_below hm.2 (by omega), Memory.read_below hn.2 (by omega)]

end

/-- Inside the font region reset leaves the FONT byte (10_state.md R36, R37). -/
theorem resetByte_font (p : Config.Params) (k : Nat) (h : k < 80) : resetByte p (p.fontBase.val + k) = p.font[k] := by
  simp [resetByte, h]

/-- Outside the font region reset leaves 0 (10_state.md R36). -/
theorem resetByte_other (p : Config.Params) (a : Nat) (h : a < p.fontBase.val ∨ p.fontBase.val + 80 ≤ a) : resetByte p a = 0 := by
  unfold resetByte
  split
  · rfl
  · rw [dif_neg (by omega)]

/-- FONT_BASE as a word is FONT_BASE. -/
@[simp] theorem toNat_fontBaseWord (p : Config.Params) : (fontBaseWord p).toNat = p.fontBase.val := by
  have := p.fontBase.isLt
  simp [fontBaseWord]; omega

/-- A machine right after reset reads as its reset contents (R36). -/
theorem memRead_resetWith (p : Config.Params) (a : Word) : (State.resetWith p).memRead a = resetByte p (mask12 a).toNat := rfl

/-- mask12 is the address modulo 4096 (R51). -/
@[simp] theorem toNat_mask12 (a : Word) : (mask12 a).toNat = a.toNat % 4096 := by
  simp only [mask12, BitVec.toNat_and]
  exact Nat.and_two_pow_sub_one_eq_mod a.toNat 12

theorem mask12_lt (a : Word) : (mask12 a).toNat < Config.memSize := by
  rw [toNat_mask12]; exact Nat.mod_lt _ (by decide)

theorem mask12_eq_iff (a b : Word) : mask12 a = mask12 b ↔ a.toNat % 4096 = b.toNat % 4096 := by
  rw [← BitVec.toNat_inj]; simp

@[simp] theorem mask12_mask12 (a : Word) : mask12 (mask12 a) = mask12 a := by
  rw [mask12_eq_iff]; simp

theorem toNat_ea (base : Word) (k : Nat) : (ea base k).toNat = (base.toNat + k) % 4096 := by
  simp only [ea, toNat_mask12, BitVec.toNat_add, BitVec.toNat_ofNat]; omega

@[simp] theorem mask12_ea (base : Word) (k : Nat) : mask12 (ea base k) = ea base k := by simp [ea]

/-- Two bytes of a transfer shorter than memory stand at different addresses. -/
theorem ea_inj {base : Word} {j k : Nat} (hj : j < k + 4096) (hk : k < j + 4096) (h : ea base j = ea base k) : j = k := by
  have := congrArg BitVec.toNat h
  rw [toNat_ea, toNat_ea] at this
  omega

/-- A read gives the same byte at every alias of an address (R51). -/
theorem State.memRead_mask12 (s : State) (a : Word) : s.memRead (mask12 a) = s.memRead a := by
  simp only [State.memRead, mask12_mask12]

/-- Read after write through the machine's addresses (R51, R52). -/
theorem State.memRead_memWrite (s : State) (a b : Word) (u : Byte) :
    (s.memWrite a u).memRead b = if mask12 b = mask12 a then u else s.memRead b := by
  simp only [State.memRead, State.memWrite, Memory.read_write, BitVec.toNat_inj]

theorem State.wf_memWrite {s : State} (a : Word) (u : Byte) (h : Memory.wf s.params s.mem = true) :
    Memory.wf s.params (s.memWrite a u).mem = true := Memory.wf_write u h (mask12_lt a)

/-- A sequence of stores keeps the canonical form. -/
theorem State.wf_storeFrom {s : State} (base : Word) (k : Nat) (us : List Byte) (h : Memory.wf s.params s.mem = true) :
    Memory.wf s.params (s.storeFrom base k us).mem = true := by
  induction us generalizing s k with
  | nil => exact h
  | cons u us ih => exact ih (s := s.memWrite _ u) (k + 1) (State.wf_memWrite _ u h)

/-- Outside its addresses a sequence of stores changes no byte. -/
theorem State.memRead_storeFrom_other (s : State) (base : Word) (k : Nat) (us : List Byte) (a : Word)
    (h : ∀ j, j < us.length → mask12 a ≠ ea base (k + j)) : (s.storeFrom base k us).memRead a = s.memRead a := by
  induction us generalizing s k with
  | nil => rfl
  | cons u us ih =>
    rw [State.storeFrom, ih]
    · rw [State.memRead_memWrite, if_neg]
      simpa using h 0 (by simp)
    · intro j hj
      have := h (j + 1) (by simpa using hj)
      rwa [show k + (j + 1) = k + 1 + j by omega] at this

/-- At its j-th address a sequence of stores leaves its j-th byte. -/
theorem State.memRead_storeFrom (s : State) (base : Word) (k : Nat) (us : List Byte) (hl : us.length ≤ 4096) (j : Nat)
    (hj : j < us.length) : (s.storeFrom base k us).memRead (ea base (k + j)) = us[j] := by
  induction us generalizing s k j with
  | nil => simp at hj
  | cons u us ih =>
    simp only [List.length_cons] at hl hj
    rw [State.storeFrom]
    cases j with
    | zero =>
      rw [State.memRead_storeFrom_other, State.memRead_memWrite, if_pos (by simp)]
      · rfl
      · intro i hi h
        rw [mask12_ea] at h
        have := ea_inj (by omega) (by omega) h
        omega
    | succ j =>
      have := ih (s.memWrite (ea base k) u) (k + 1) (by omega) j (by omega)
      rw [show k + (j + 1) = k + 1 + j by omega, this]
      rfl

end Sys2Proof.Machine
end

