-- ==== Sys2Proof/Laws/Grid.lean ====
section
/-! SUPPORT. The laws of the output grid (spec 43_display.md R160 to R165): read after write, and what a draw does to every pixel and to
the collision flag. -/

namespace Sys2Proof.Machine

/-- Read after write of a pixel (R160). -/
theorem Grid.get_put (g : Grid) (px qx : Fin 64) (py qy : Fin 32) (b : Bool) :
    (g.put px py b).get qx qy = if qx = px ∧ qy = py then b else g.get qx qy := by
  simp only [Grid.get, Grid.put, Fin.getElem_fin, Vector.getElem_set, Fin.val_inj]
  by_cases hx : px = qx
  · subst hx
    simp only [if_true, Vector.getElem_set, Fin.val_inj, true_and]
    by_cases hy : py = qy
    · subst hy; simp
    · simp [hy, Ne.symm hy]
  · simp [hx, Ne.symm hx]

/-- After clear() every cell is false (R160). -/
@[simp] theorem Grid.get_clear (px : Fin 64) (py : Fin 32) : Grid.clear.get px py = false := by
  simp [Grid.get, Grid.clear]

/-- Two grids that agree on every cell are equal. -/
theorem Grid.ext {g h : Grid} (e : ∀ px py, g.get px py = h.get px py) : g = h := by
  apply Vector.ext; intro x hx
  apply Vector.ext; intro y hy
  exact e ⟨x, hx⟩ ⟨y, hy⟩

theorem Canvas.get_flip (c : Canvas) (px qx : Fin 64) (py qy : Fin 32) :
    (c.flip px py).grid.get qx qy = if qx = px ∧ qy = py then !c.grid.get qx qy else c.grid.get qx qy := by
  simp only [Canvas.flip, Grid.get_put]
  split
  · rename_i h; rw [h.1, h.2]
  · rfl

/-- The columns below n of one row have a 1 bit at column px. -/
def RowBit (cx row : Byte) (n : Nat) (px : Fin 64) : Prop :=
  ∃ col : Nat, col < n ∧ px.val = (cx.toNat + col) % 64 ∧ row.getLsbD (7 - col) = true

theorem RowBit.succ {cx row : Byte} {n : Nat} {px : Fin 64} :
    RowBit cx row (n + 1) px ↔
      RowBit cx row n px ∨ (px = Fin.ofNat 64 (cx.toNat + n) ∧ row.getLsbD (7 - n) = true) := by
  constructor
  · rintro ⟨col, hc, hp, hb⟩
    rcases Nat.lt_succ_iff_lt_or_eq.1 hc with h | h
    · exact .inl ⟨col, h, hp, hb⟩
    · subst h; exact .inr ⟨Fin.ext hp, hb⟩
  · rintro (⟨col, hc, hp, hb⟩ | ⟨hp, hb⟩)
    · exact ⟨col, by omega, hp, hb⟩
    · exact ⟨n, by omega, by rw [hp]; rfl, hb⟩

theorem RowBit.not_next {cx row : Byte} {n : Nat} (hn : n < 64) :
    ¬ RowBit cx row n (Fin.ofNat 64 (cx.toNat + n)) := by
  rintro ⟨col, hc, hp, -⟩
  have : (cx.toNat + n) % 64 = (cx.toNat + col) % 64 := hp
  omega

/-- One sprite row: exactly its 1 bits are inverted (R162). -/
theorem Canvas.get_drawBits (c : Canvas) (cx row : Byte) (py : Fin 32) (n : Nat) (hn : n ≤ 64) (qx : Fin 64) (qy : Fin 32) :
    (qy = py ∧ RowBit cx row n qx → (c.drawBits cx py row n).grid.get qx qy = !c.grid.get qx qy) ∧
    (¬ (qy = py ∧ RowBit cx row n qx) → (c.drawBits cx py row n).grid.get qx qy = c.grid.get qx qy) := by
  induction n with
  | zero =>
    refine ⟨fun h => ?_, fun _ => rfl⟩
    obtain ⟨-, col, hc, -⟩ := h
    omega
  | succ n ih =>
    have ih := ih (by omega)
    simp only [Canvas.drawBits, RowBit.succ]
    split
    · rename_i hb
      rw [Canvas.get_flip]
      by_cases hx : qx = Fin.ofNat 64 (cx.toNat + n)
      · have hnot : ¬ RowBit cx row n qx := hx ▸ RowBit.not_next (by omega)
        rw [ih.2 (fun h => hnot h.2)]
        constructor
        · rintro ⟨hy, -⟩; rw [if_pos ⟨hx, hy⟩]
        · intro h
          rw [if_neg]
          rintro ⟨-, hy⟩
          exact h ⟨hy, .inr ⟨hx, hb⟩⟩
      · rw [if_neg (fun h => hx h.1)]
        constructor
        · rintro ⟨hy, h | h⟩
          · exact ih.1 ⟨hy, h⟩
          · exact absurd h.1 hx
        · intro h; exact ih.2 (fun h' => h ⟨h'.1, .inl h'.2⟩)
    · rename_i hb
      constructor
      · rintro ⟨hy, h | h⟩
        · exact ih.1 ⟨hy, h⟩
        · exact absurd h.2 hb
      · intro h; exact ih.2 (fun h' => h ⟨h'.1, .inl h'.2⟩)

/-- One sprite row: a collision is a 1 bit over a set pixel (R164). -/
theorem Canvas.hit_drawBits (c : Canvas) (cx row : Byte) (py : Fin 32) (n : Nat) (hn : n ≤ 64) :
    (c.drawBits cx py row n).hit = true ↔
      c.hit = true ∨ ∃ qx : Fin 64, RowBit cx row n qx ∧ c.grid.get qx py = true := by
  induction n with
  | zero =>
    simp only [Canvas.drawBits]
    constructor
    · exact .inl
    · rintro (h | ⟨qx, ⟨col, hc, -⟩, -⟩)
      · exact h
      · omega
  | succ n ih =>
    have ih := ih (by omega)
    simp only [Canvas.drawBits, RowBit.succ]
    split
    · rename_i hb
      have hnew := (Canvas.get_drawBits c cx row py n (by omega) (Fin.ofNat 64 (cx.toNat + n)) py).2
        (fun h => RowBit.not_next (by omega) h.2)
      simp only [Canvas.flip, Bool.or_eq_true, ih, hnew]
      constructor
      · rintro ((h | ⟨qx, hq, hg⟩) | h)
        · exact .inl h
        · exact .inr ⟨qx, .inl hq, hg⟩
        · exact .inr ⟨_, .inr ⟨rfl, hb⟩, h⟩
      · rintro (h | ⟨qx, hq | ⟨rfl, -⟩, hg⟩)
        · exact .inl (.inl h)
        · exact .inl (.inr ⟨qx, hq, hg⟩)
        · exact .inr hg
    · rename_i hb
      rw [ih]
      constructor
      · rintro (h | ⟨qx, hq, hg⟩)
        · exact .inl h
        · exact .inr ⟨qx, .inl hq, hg⟩
      · rintro (h | ⟨qx, hq | ⟨-, hq⟩, hg⟩)
        · exact .inl h
        · exact .inr ⟨qx, hq, hg⟩
        · exact absurd hq hb

theorem SpriteBit.succ {s : State} {cx cy : Byte} {n : Nat} {px : Fin 64} {py : Fin 32} :
    SpriteBit s cx cy (n + 1) px py ↔
      SpriteBit s cx cy n px py ∨ (py = Fin.ofNat 32 (cy.toNat + n) ∧ RowBit cx (s.memRead (ea s.i n)) 8 px) := by
  constructor
  · rintro ⟨row, col, hr, hc, hx, hy, hb⟩
    rcases Nat.lt_succ_iff_lt_or_eq.1 hr with h | h
    · exact .inl ⟨row, col, h, hc, hx, hy, hb⟩
    · subst h; exact .inr ⟨Fin.ext hy, col, hc, hx, by rwa [ea, State.memRead_mask12]⟩
  · rintro (⟨row, col, hr, hc, hx, hy, hb⟩ | ⟨hy, col, hc, hx, hb⟩)
    · exact ⟨row, col, by omega, hc, hx, hy, hb⟩
    · exact ⟨n, col, by omega, hc, hx, by rw [hy]; rfl, by rwa [ea, State.memRead_mask12] at hb⟩

theorem SpriteBit.not_next {s : State} {cx cy : Byte} {n : Nat} {px : Fin 64} (hn : n < 32) :
    ¬ SpriteBit s cx cy n px (Fin.ofNat 32 (cy.toNat + n)) := by
  rintro ⟨row, col, hr, -, -, hy, -⟩
  have : (cy.toNat + n) % 32 = (cy.toNat + row) % 32 := hy
  omega

/-- A whole draw: exactly the sprite's 1 bits are inverted (R162, R163, R165). -/
theorem Canvas.get_drawRows (c : Canvas) (s : State) (cx cy : Byte) (n : Nat) (hn : n ≤ 32) (qx : Fin 64) (qy : Fin 32) :
    (SpriteBit s cx cy n qx qy → (c.drawRows s cx cy n).grid.get qx qy = !c.grid.get qx qy) ∧
    (¬ SpriteBit s cx cy n qx qy → (c.drawRows s cx cy n).grid.get qx qy = c.grid.get qx qy) := by
  induction n with
  | zero =>
    refine ⟨fun h => ?_, fun _ => rfl⟩
    obtain ⟨row, -, hr, -⟩ := h
    omega
  | succ n ih =>
    have ih := ih (by omega)
    have hd := Canvas.get_drawBits (c.drawRows s cx cy n) cx (s.memRead (ea s.i n)) (Fin.ofNat 32 (cy.toNat + n)) 8
      (by omega) qx qy
    simp only [Canvas.drawRows, SpriteBit.succ]
    by_cases hy : qy = Fin.ofNat 32 (cy.toNat + n) ∧ RowBit cx (s.memRead (ea s.i n)) 8 qx
    · have hnot : ¬ SpriteBit s cx cy n qx qy := hy.1 ▸ SpriteBit.not_next (by omega)
      rw [hd.1 hy, ih.2 hnot]
      exact ⟨fun _ => rfl, fun h => absurd (.inr hy) h⟩
    · rw [hd.2 hy]
      exact ⟨fun h => ih.1 (h.resolve_right hy), fun h => ih.2 (fun h' => h (.inl h'))⟩

/-- A whole draw: a collision is a 1 bit of the sprite over a pixel that was set before the draw (R164). -/
theorem Canvas.hit_drawRows (c : Canvas) (s : State) (cx cy : Byte) (n : Nat) (hn : n ≤ 32) :
    (c.drawRows s cx cy n).hit = true ↔
      c.hit = true ∨ ∃ qx qy, SpriteBit s cx cy n qx qy ∧ c.grid.get qx qy = true := by
  induction n with
  | zero =>
    simp only [Canvas.drawRows]
    constructor
    · exact .inl
    · rintro (h | ⟨qx, qy, ⟨row, -, hr, -⟩, -⟩)
      · exact h
      · omega
  | succ n ih =>
    have hg := fun qx => (Canvas.get_drawRows c s cx cy n (by omega) qx (Fin.ofNat 32 (cy.toNat + n))).2
      (SpriteBit.not_next (by omega))
    simp only [Canvas.drawRows, Canvas.hit_drawBits _ _ _ _ 8 (by omega), ih (by omega), SpriteBit.succ, hg]
    constructor
    · rintro ((h | ⟨qx, qy, hs, h⟩) | ⟨qx, hb, h⟩)
      · exact .inl h
      · exact .inr ⟨qx, qy, .inl hs, h⟩
      · exact .inr ⟨qx, _, .inr ⟨rfl, hb⟩, h⟩
    · rintro (h | ⟨qx, qy, hs | ⟨rfl, hb⟩, h⟩)
      · exact .inl (.inl h)
      · exact .inl (.inr ⟨qx, qy, hs, h⟩)
      · exact .inr ⟨qx, hb, h⟩

end Sys2Proof.Machine
end

