-- ==== Sys2Proof/Laws/PerInstr.lean ====
section
/-! SUPPORT. Statements for all instructions, one lemma per constructor. Family `RoundTrip`: decoding the instruction's word gives the
instruction back (spec 30_encoding.md R75), with every operand at every value its field admits. -/

namespace Sys2Proof.Laws.RoundTrip

/-- Decoding the encoded instruction gives it back. -/
def Statement (i : Instr) : Prop := decodeWord (encode i) = .ok i

theorem cls : Statement .cls := rfl
theorem ret : Statement .ret := rfl
theorem jp (addr : Addr) : Statement (.jp addr) := by simp [Statement, encode, decodeWord]
theorem call (addr : Addr) : Statement (.call addr) := by simp [Statement, encode, decodeWord]
theorem seImm (x : Nibble) (kk : Byte) : Statement (.seImm x kk) := by simp [Statement, encode, decodeWord]
theorem sneImm (x : Nibble) (kk : Byte) : Statement (.sneImm x kk) := by simp [Statement, encode, decodeWord]
theorem seReg (x y : Nibble) : Statement (.seReg x y) := by simp [Statement, encode, decodeWord, decode5]
theorem ldImm (x : Nibble) (kk : Byte) : Statement (.ldImm x kk) := by simp [Statement, encode, decodeWord]
theorem addImm (x : Nibble) (kk : Byte) : Statement (.addImm x kk) := by simp [Statement, encode, decodeWord]
theorem ldReg (x y : Nibble) : Statement (.ldReg x y) := by simp [Statement, encode, decodeWord, decode8]
theorem orReg (x y : Nibble) : Statement (.orReg x y) := by simp [Statement, encode, decodeWord, decode8]
theorem andReg (x y : Nibble) : Statement (.andReg x y) := by simp [Statement, encode, decodeWord, decode8]
theorem xorReg (x y : Nibble) : Statement (.xorReg x y) := by simp [Statement, encode, decodeWord, decode8]
theorem addReg (x y : Nibble) : Statement (.addReg x y) := by simp [Statement, encode, decodeWord, decode8]
theorem subReg (x y : Nibble) : Statement (.subReg x y) := by simp [Statement, encode, decodeWord, decode8]
theorem shr (x y : Nibble) : Statement (.shr x y) := by simp [Statement, encode, decodeWord, decode8]
theorem subnReg (x y : Nibble) : Statement (.subnReg x y) := by simp [Statement, encode, decodeWord, decode8]
theorem shl (x y : Nibble) : Statement (.shl x y) := by simp [Statement, encode, decodeWord, decode8]
theorem sneReg (x y : Nibble) : Statement (.sneReg x y) := by simp [Statement, encode, decodeWord, decode9]
theorem ldI (addr : Addr) : Statement (.ldI addr) := by simp [Statement, encode, decodeWord]
theorem jpV0 (addr : Addr) : Statement (.jpV0 addr) := by simp [Statement, encode, decodeWord]
theorem rnd (x : Nibble) (kk : Byte) : Statement (.rnd x kk) := by simp [Statement, encode, decodeWord]
theorem drw (x y n : Nibble) : Statement (.drw x y n) := by simp [Statement, encode, decodeWord]
theorem skp (x : Nibble) : Statement (.skp x) := by simp [Statement, encode, decodeWord, decodeE]
theorem sknp (x : Nibble) : Statement (.sknp x) := by simp [Statement, encode, decodeWord, decodeE]
theorem ldVxDt (x : Nibble) : Statement (.ldVxDt x) := by simp [Statement, encode, decodeWord, decodeF]
theorem ldVxK (x : Nibble) : Statement (.ldVxK x) := by simp [Statement, encode, decodeWord, decodeF]
theorem ldDtVx (x : Nibble) : Statement (.ldDtVx x) := by simp [Statement, encode, decodeWord, decodeF]
theorem ldStVx (x : Nibble) : Statement (.ldStVx x) := by simp [Statement, encode, decodeWord, decodeF]
theorem addI (x : Nibble) : Statement (.addI x) := by simp [Statement, encode, decodeWord, decodeF]
theorem ldF (x : Nibble) : Statement (.ldF x) := by simp [Statement, encode, decodeWord, decodeF]
theorem ldB (x : Nibble) : Statement (.ldB x) := by simp [Statement, encode, decodeWord, decodeF]
theorem stRegs (x : Nibble) : Statement (.stRegs x) := by simp [Statement, encode, decodeWord, decodeF]
theorem ldRegs (x : Nibble) : Statement (.ldRegs x) := by simp [Statement, encode, decodeWord, decodeF]

end Sys2Proof.Laws.RoundTrip
end

