-- ==== Sys2Proof/Laws/Regs.lean ====
section
/-! SUPPORT. The laws of the general registers: read after write (spec 10_state.md R20), the flag-last write (41_alu.md R122), register
ranges (42_index_memory.md R145, R146), the lowest pressed key (44_keys_timers.md R184). -/

namespace Sys2Proof.Machine

/-- Read after write of a register. -/
theorem State.readV_writeV (s : State) (x r : Nibble) (u : Byte) :
    (s.writeV x u).readV r = if r = x then u else s.readV r := by
  simp only [State.readV, State.writeV, Vector.getElem_set, BitVec.toNat_inj, eq_comm]

@[simp] theorem State.readV_writeV_self (s : State) (x : Nibble) (u : Byte) : (s.writeV x u).readV x = u := by
  simp [State.readV_writeV]

/-- After a result and its flag: VF holds the flag, else V[x] the result (41_alu.md R122). -/
theorem State.readV_writeResultFlag (s : State) (x r : Nibble) (u f : Byte) :
    (s.writeResultFlag x u f).readV r = if r = regVF then f else if r = x then u else s.readV r := by
  simp only [State.writeResultFlag, State.readV_writeV]

/-- V[0..x] as values: x + 1 of them. -/
@[simp] theorem State.length_regsUpTo (s : State) (x : Nibble) : (s.regsUpTo x).length = x.toNat + 1 := by
  have := x.isLt
  simp only [State.regsUpTo, List.length_take, Vector.length_toList]
  omega

/-- The k-th of them is V[k]. -/
theorem State.getElem_regsUpTo (s : State) (x : Nibble) (k : Nat) (h : k < (s.regsUpTo x).length) :
    (s.regsUpTo x)[k] = s.readV (BitVec.ofNat 4 k) := by
  rw [State.length_regsUpTo] at h
  have := x.isLt
  have hk : (BitVec.ofNat 4 k).toNat = k := by simp; omega
  simp only [State.regsUpTo, List.getElem_take, Vector.getElem_toList, State.readV, hk]

/-- After a register load: V[k] for k below the count is the byte at EA(k), the others are as before. -/
theorem State.readV_loadRegs (s : State) (n : Nat) (hn : n ≤ 16) (r : Nibble) :
    (s.loadRegs n).readV r = if r.toNat < n then s.memRead (ea s.i r.toNat) else s.readV r := by
  induction n with
  | zero => simp [State.loadRegs]
  | succ n ih =>
    simp only [State.loadRegs, State.readV_writeV, ih (by omega)]
    have hr : r = BitVec.ofNat 4 n ↔ r.toNat = n := by
      rw [← BitVec.toNat_inj]; simp; omega
    by_cases h : r.toNat = n
    · rw [if_pos (hr.2 h), if_pos (by omega), h]
      exact State.memRead_congr (State.loadRegs_mem s n) (State.loadRegs_params s n) _
    · rw [if_neg (mt hr.1 h)]
      by_cases h' : r.toNat < n
      · rw [if_pos h', if_pos (by omega)]
      · rw [if_neg h', if_neg (by omega)]

/-- A lowest pressed key is pressed, and no lower one is. -/
theorem State.lowestKey_eq_some {s : State} {k : Nat} :
    s.lowestKey = some k ↔ ∃ h : k < 16, s.key[k] = true ∧ ∀ j (hj : j < k), s.key[j]'(hj.trans h) = false := by
  simp only [State.lowestKey, List.findIdx?_eq_some_iff_getElem, Vector.length_toList, Vector.getElem_toList, id]
  simp

/-- No key is pressed. -/
theorem State.lowestKey_eq_none {s : State} : s.lowestKey = none ↔ ∀ k (h : k < 16), s.key[k] = false := by
  simp only [State.lowestKey, List.findIdx?_eq_none_iff, id]
  constructor
  · intro h k hk
    exact h _ (by simp)
  · intro h b hb
    obtain ⟨k, hk, rfl⟩ := List.getElem_of_mem hb
    simp only [Vector.getElem_toList]
    exact h k (by simpa using hk)

end Sys2Proof.Machine
end

