-- ==== Sys2Proof/Laws/Step.lean ====
section
/-! SUPPORT. What a step, a call, a return, a key wait, a run of steps and a tick can do, said once (spec 30_encoding.md R82 to R84,
60_exceptions.md R209): the inversion lemmas later proofs cite instead of unfolding the machine. -/

namespace Sys2Proof.Machine

/-- A step that answers a next state: no fault was recorded, and either the decoded instruction was executed or the word was no
instruction and its fault was taken (R82). -/
theorem step_next_cases {s t : State} (h : step s = .next t) :
    s.fault = none ∧
    ((∃ i : Instr, decodeWord s.fetch = .ok i ∧ exec i s = .next t) ∨
      ((∃ e : Reject, decodeWord s.fetch = .error e) ∧ t = s.raiseFault .invalidInstruction s.fetch)) := by
  unfold step at h
  split at h
  · cases h
  · rename_i hf
    refine ⟨hf, ?_⟩
    split at h
    · rename_i i hd; exact .inl ⟨i, hd, h⟩
    · rename_i e hd; cases h; exact .inr ⟨⟨e, hd⟩, rfl⟩

/-- A step without a fault record at a word that decodes. -/
theorem step_of_decode {s : State} {i : Instr} (hf : s.fault = none) (hd : decodeWord s.fetch = .ok i) : step s = exec i s := by
  simp only [step, hf, hd]

/-- A step without a fault record at a word that does not decode. -/
theorem step_of_reject {s : State} {e : Reject} (hf : s.fault = none) (hd : decodeWord s.fetch = .error e) :
    step s = .next (s.raiseFault .invalidInstruction s.fetch) := by
  simp only [step, hf, hd]

/-- A call that answers a next state overflowed or pushed and jumped (40_flow.md R102). -/
theorem execCall_cases {addr : Addr} {s t : State} (h : execCall addr s = .next t) :
    (s.sp = 16 ∧ t = s.raiseFault .stackOverflow (encode (.call addr))) ∨
    (∃ hs : s.sp.toNat < 16, t = (s.push (s.pc + 2) hs).goto (zextAddr addr)) := by
  unfold execCall at h
  split at h
  · rename_i hs; cases h; exact .inl ⟨hs, rfl⟩
  · split at h
    · rename_i hs; cases h; exact .inr ⟨hs, rfl⟩
    · cases h

/-- A return that answers a next state underflowed or popped (40_flow.md R100). -/
theorem execRet_cases {s t : State} (h : execRet s = .next t) :
    (s.sp = 0 ∧ t = s.raiseFault .stackUnderflow (encode .ret)) ∨
    (∃ hs : s.sp.toNat - 1 < 16, s.sp ≠ 0 ∧ t = s.popGoto hs) := by
  unfold execRet at h
  split at h
  · rename_i hs; cases h; exact .inl ⟨hs, rfl⟩
  · rename_i h0
    split at h
    · rename_i hs; cases h; exact .inr ⟨hs, h0, rfl⟩
    · cases h

/-- A key wait that answers a next state took a pressed key or waits (44_keys_timers.md R184). -/
theorem execLdVxK_cases {x : Nibble} {s t : State} (h : execLdVxK x s = .next t) :
    (∃ k, s.lowestKey = some k ∧ t = { s.writeV x (BitVec.ofNat 8 k) with waitKey := false }.advance) ∨
    (s.lowestKey = none ∧ t = s.wait) := by
  unfold execLdVxK at h
  split at h
  · rename_i k hk; cases h; exact .inl ⟨k, hk, rfl⟩
  · rename_i hk; cases h; exact .inr ⟨hk, rfl⟩

/-- A state that waits for a key is at an FX0A with no key pressed. -/
theorem waitsForKey_iff {s : State} :
    waitsForKey s = true ↔ (∃ x : Nibble, decodeWord s.fetch = .ok (.ldVxK x)) ∧ s.lowestKey = none := by
  unfold waitsForKey
  split
  · rename_i x hd
    simp only [Option.isNone_iff_eq_none]
    exact ⟨fun h => ⟨⟨x, hd⟩, h⟩, fun h => h.2⟩
  · rename_i hd
    constructor
    · intro h; cases h
    · rintro ⟨⟨x, hx⟩, -⟩; exact absurd hx (hd x)

/-- The step of a state that waits for a key is the outcome Wait. -/
theorem step_of_waits {s : State} (hf : s.fault = none) (hw : waitsForKey s = true) : step s = .next s.wait := by
  obtain ⟨⟨x, hd⟩, hk⟩ := waitsForKey_iff.1 hw
  rw [step_of_decode hf hd]
  show execLdVxK x s = _
  simp only [execLdVxK, hk]

/-- The instruction phase, one step at a time, when the step answers a next state (R209). -/
theorem runSteps_succ {n : Nat} {s t : State} (h : step s = .next t) :
    runSteps (n + 1) s =
      if waitsForKey s then (t, .waiting) else if t.fault.isSome then (t, .faulted) else runSteps n t := by
  simp only [runSteps, h]

/-- The core's run, one step at a time. -/
theorem core_run_succ {n : Nat} {s t : State} (h : step s = .next t) :
    Sys2Proof.core.run (n + 1) s = Sys2Proof.core.run n t := by
  have h' : Sys2Proof.core.step s = .next t := h
  simp only [Host.Core.run, h']

/-- A tick of a machine without a fault record (R209). -/
theorem tick_of_running {ipt : Nat} {s : State} (h : s.fault = none) :
    tick ipt s = ((runSteps ipt s).1.timersDown, (runSteps ipt s).2) := by
  simp [tick, h]

/-- A timer after one tick (60_exceptions.md R210). -/
@[simp] theorem toNat_timerDown (t : Byte) : (timerDown t).toNat = t.toNat - 1 := by
  unfold timerDown
  split
  · rename_i h; simp [h]
  · rename_i h
    have : 1 ≤ t.toNat := by
      rcases Nat.eq_zero_or_pos t.toNat with h0 | h0
      · exact absurd (BitVec.eq_of_toNat_eq (by simpa using h0)) h
      · exact h0
    rw [BitVec.toNat_sub_of_le (by simpa [BitVec.le_def] using this)]
    rfl

/-- Induction over what a host can reach: what holds at every construction and every call keeps holds of every reachable state. -/
theorem Reachable.induct {ipt : Nat} {P : State → Prop} (h0 : ∀ p, P (State.resetWith p))
    (hc : ∀ c s, P s → P (hostCall ipt c s)) {s : State} (h : Reachable ipt s) : P s := by
  induction h with
  | construct p => exact h0 p
  | call c s _ ih => exact hc c s ih

end Sys2Proof.Machine
end

