-- ==== Sys2Proof/Laws/Words.lean ====
section
/-! SUPPORT. The words as the rules' encoding lines write them (`top | x<<8 | kk`, Safety.lean) are the words the encoder makes by joining
fields. -/

namespace Sys2Proof.Machine

theorem wordA_eq (op : Nibble) (addr : Addr) : wordA (op.setWidth 16 <<< 12) addr = formatA op addr := by
  apply BitVec.eq_of_getLsbD_eq; intro i hi
  simp only [wordA, formatA, BitVec.getLsbD_or, BitVec.getLsbD_append, BitVec.getLsbD_shiftLeft, BitVec.getLsbD_setWidth]
  interval_cases i <;> simp

theorem wordXK_eq (op x : Nibble) (kk : Byte) : wordXK (op.setWidth 16 <<< 12) x kk = formatXK op x kk := by
  apply BitVec.eq_of_getLsbD_eq; intro i hi
  simp only [wordXK, formatXK, BitVec.getLsbD_or, BitVec.getLsbD_append, BitVec.getLsbD_shiftLeft, BitVec.getLsbD_setWidth]
  interval_cases i <;> simp

theorem wordXYN_eq (op x y n : Nibble) : wordXYN (op.setWidth 16 <<< 12) x y n = formatXYN op x y n := by
  apply BitVec.eq_of_getLsbD_eq; intro i hi
  simp only [wordXYN, formatXYN, BitVec.getLsbD_or, BitVec.getLsbD_append, BitVec.getLsbD_shiftLeft, BitVec.getLsbD_setWidth]
  interval_cases i <;> simp

end Sys2Proof.Machine
end

