-- ==== Sys2Proof/Tests/Slice0.lean ====
section
/-! SUPPORT. Tests of the model against the spec: checks that refuse ill-formed inputs, every constructor's decoding from its word written
out bit by bit, one-step vectors of spec/95_test_vectors.md, and a witness for the hypotheses of every statement that has any. Expected
values come from spec/, never from the model. -/

namespace Sys2Proof.Tests

open Sys2Proof.Machine

/-! ### Helpers -/

/-- The state with the instruction word placed at the address and PC there. -/
def place (pc : Word) (w : Nat) (s : State) : State := State.withFetchWord { s with pc := pc } 16 w

/-- The state after one step at the placed word, none where the step answers no next state. -/
def stepAt (pc : Word) (w : Nat) (s : State) : Option State :=
  match step (place pc w s) with
  | .next t => some t
  | _ => none

/-- The reset state with two registers set. -/
def regs2 (x : Nibble) (u : Byte) (y : Nibble) (v : Byte) : State := (State.reset.writeV x u).writeV y v

/-- The reset state with VF set. -/
def withVF (u : Byte) : State := State.reset.writeV regVF u

/-- The reset state with I at 0x300 and a sprite there. -/
def sprite : List Byte → State := fun rows => { State.reset with i := 0x300 }.storeFrom 0x300 0 rows

/-- The reset state with a stack pointer and every stack entry equal. -/
def stackAt (sp : Byte) (w : Word) : State := { State.reset with sp := sp, stack := Vector.replicate 16 w }

/-- Two registers of the state after a step. -/
def regPair (x y : Nibble) (t : Option State) : Option (Byte × Byte) := t.map fun t => (t.readV x, t.readV y)

/-- Three bytes of memory of the state after a step. -/
def memTriple (a : Word) (t : Option State) : Option (Byte × Byte × Byte) :=
  t.map fun t => (t.memRead a, t.memRead (a + 1), t.memRead (a + 2))

/-- Two pixels and VF of the state after a step. -/
def pixels (x1 : Fin 64) (y1 : Fin 32) (x2 : Fin 64) (y2 : Fin 32) (t : Option State) : Option (Bool × Bool × Byte) :=
  t.map fun t => (Grid.get t.grid x1 y1, Grid.get t.grid x2 y2, t.readV regVF)

/-- A program image of n bytes. -/
def image (n : Nat) : List Byte := List.replicate n 0

theorem length_image (n : Nat) : (image n).length = n := List.length_replicate

/-- Parameters other than the defaults: FONT_BASE = 0x50 and a FONT of 0xFF bytes. -/
def highFont : Config.Params := { fontBase := 0x50, font := Vector.replicate 80 0xFF }

/-- A fault record of the state. -/
def aFault : FaultRecord := { kind := .invalidInstruction, pc := 0x200, opcode := 0x0000 }

/-! ### Checks: each refuses an ill-formed input and takes the well-formed ones at its bounds -/

theorem test_wf_image_3584_fits : WellFormed.imageFits (image 3584) = true := by simp [WellFormed.imageFits, Config.maxProgram, length_image]
theorem test_wf_image_3585_refused : WellFormed.imageFits (image 3585) = false := by simp [WellFormed.imageFits, Config.maxProgram, length_image]
theorem test_wf_key_0_and_15 : WellFormed.keyIndex 0 = true ∧ WellFormed.keyIndex 15 = true := by decide
theorem test_wf_key_minus_1_refused : WellFormed.keyIndex (-1) = false := by decide
theorem test_wf_key_16_refused : WellFormed.keyIndex 16 = false := by decide
theorem test_wf_grid_corners : WellFormed.gridCoord 0 0 = true ∧ WellFormed.gridCoord 63 31 = true := by decide
theorem test_wf_grid_x_minus_1_refused : WellFormed.gridCoord (-1) 0 = false := by decide
theorem test_wf_grid_x_64_refused : WellFormed.gridCoord 64 0 = false := by decide
theorem test_wf_grid_y_minus_1_refused : WellFormed.gridCoord 0 (-1) = false := by decide
theorem test_wf_grid_y_32_refused : WellFormed.gridCoord 0 32 = false := by decide
theorem test_wf_ipt_1 : WellFormed.instrsPerTick 1 = true := by decide
theorem test_wf_ipt_0_refused : WellFormed.instrsPerTick 0 = false := by decide

/-! ### Decoding: a word of every constructor, its bits written out from the opcode table (30_encoding.md R75) -/

theorem test_decode_cls : decodeTableWord 16 0b0000000011100000 = some (.cls) := by decide
theorem test_decode_ret : decodeTableWord 16 0b0000000011101110 = some (.ret) := by decide
theorem test_decode_jp : decodeTableWord 16 0b0001101010111100 = some (.jp 0xABC) := by decide
theorem test_decode_call : decodeTableWord 16 0b0010101010111100 = some (.call 0xABC) := by decide
theorem test_decode_seImm : decodeTableWord 16 0b0011000110100101 = some (.seImm 1 0xA5) := by decide
theorem test_decode_sneImm : decodeTableWord 16 0b0100000110100101 = some (.sneImm 1 0xA5) := by decide
theorem test_decode_seReg : decodeTableWord 16 0b0101000100100000 = some (.seReg 1 2) := by decide
theorem test_decode_ldImm : decodeTableWord 16 0b0110101001000010 = some (.ldImm 0xA 0x42) := by decide
theorem test_decode_addImm : decodeTableWord 16 0b0111000000010000 = some (.addImm 0 0x10) := by decide
theorem test_decode_ldReg : decodeTableWord 16 0b1000000100100000 = some (.ldReg 1 2) := by decide
theorem test_decode_orReg : decodeTableWord 16 0b1000000100100001 = some (.orReg 1 2) := by decide
theorem test_decode_andReg : decodeTableWord 16 0b1000000100100010 = some (.andReg 1 2) := by decide
theorem test_decode_xorReg : decodeTableWord 16 0b1000000100100011 = some (.xorReg 1 2) := by decide
theorem test_decode_addReg : decodeTableWord 16 0b1000000100100100 = some (.addReg 1 2) := by decide
theorem test_decode_subReg : decodeTableWord 16 0b1000000100100101 = some (.subReg 1 2) := by decide
theorem test_decode_shr : decodeTableWord 16 0b1000010001010110 = some (.shr 4 5) := by decide
theorem test_decode_subnReg : decodeTableWord 16 0b1000000100100111 = some (.subnReg 1 2) := by decide
theorem test_decode_shl : decodeTableWord 16 0b1000000100101110 = some (.shl 1 2) := by decide
theorem test_decode_sneReg : decodeTableWord 16 0b1001101010110000 = some (.sneReg 0xA 0xB) := by decide
theorem test_decode_ldI : decodeTableWord 16 0b1010001011110000 = some (.ldI 0x2F0) := by decide
theorem test_decode_jpV0 : decodeTableWord 16 0b1011001100000100 = some (.jpV0 0x304) := by decide
theorem test_decode_rnd : decodeTableWord 16 0b1100001100001111 = some (.rnd 3 0x0F) := by decide
theorem test_decode_drw : decodeTableWord 16 0b1101010110100011 = some (.drw 5 0xA 3) := by decide
theorem test_decode_skp : decodeTableWord 16 0b1110000110011110 = some (.skp 1) := by decide
theorem test_decode_sknp : decodeTableWord 16 0b1110101010100001 = some (.sknp 0xA) := by decide
theorem test_decode_ldVxDt : decodeTableWord 16 0b1111000100000111 = some (.ldVxDt 1) := by decide
theorem test_decode_ldVxK : decodeTableWord 16 0b1111010000001010 = some (.ldVxK 4) := by decide
theorem test_decode_ldDtVx : decodeTableWord 16 0b1111001000010101 = some (.ldDtVx 2) := by decide
theorem test_decode_ldStVx : decodeTableWord 16 0b1111001000011000 = some (.ldStVx 2) := by decide
theorem test_decode_addI : decodeTableWord 16 0b1111001000011110 = some (.addI 2) := by decide
theorem test_decode_ldF : decodeTableWord 16 0b1111010100101001 = some (.ldF 5) := by decide
theorem test_decode_ldB : decodeTableWord 16 0b1111001100110011 = some (.ldB 3) := by decide
theorem test_decode_stRegs : decodeTableWord 16 0b1111000101010101 = some (.stRegs 1) := by decide
theorem test_decode_ldRegs : decodeTableWord 16 0b1111000101100101 = some (.ldRegs 1) := by decide
theorem test_decode_0nnn_is_no_instruction : decodeTableWord 16 0x0123 = none := by decide
theorem test_decode_8xy8_is_no_instruction : decodeTableWord 16 0x8128 = none := by decide
theorem test_decode_bytes_big_endian : decodeBytes [0x1A, 0xBC, 0x77] = .ok (.jp 0xABC, [0x77]) := rfl
theorem test_asm_drw : asm (.drw 1 2 0) = "DRW V1, V2, 0x0" := by decide

/-! ### Fields of D5A3 (95_test_vectors.md 2.1) -/

theorem test_fields_D5A3 : opOf 0xD5A3 = 0xD ∧ xOf 0xD5A3 = 5 ∧ yOf 0xD5A3 = 0xA ∧ nOf 0xD5A3 = 3 ∧ kkOf 0xD5A3 = 0xA3 ∧
    addrOf 0xD5A3 = 0x5A3 := by decide

/-! ### One step, control flow (95_test_vectors.md 2.2) -/

theorem test_ret_sp16 :
    (stepAt 0x300 0x00EE (stackAt 16 0xABC)).map (fun t => (t.sp, t.pc)) = some (15, 0xABC) := by decide
theorem test_ret_underflow :
    (stepAt 0x300 0x00EE State.reset).map (fun t => (t.sp, t.pc, t.fault)) =
      some (0, 0x300, some ⟨.stackUnderflow, 0x300, 0x00EE⟩) := by decide
theorem test_jp :
    (stepAt 0x200 0x1FFF State.reset).map (·.pc) = some 0xFFF := by decide
theorem test_call_sp15 :
    (stepAt 0x400 0x2600 (stackAt 15 0)).map (fun t => (t.sp, t.pc, t.stack[15], t.stack[14])) = some (16, 0x600, 0x402, 0) := by decide
theorem test_call_overflow :
    (stepAt 0x400 0x2600 (stackAt 16 0)).map (fun t => (t.sp, t.pc, t.fault)) =
      some (16, 0x400, some ⟨.stackOverflow, 0x400, 0x2600⟩) := by decide
theorem test_se_imm_taken_wraps :
    (stepAt 0xFFFE 0x3310 (State.reset.writeV 3 0x10)).map (·.pc) = some 0x0002 := by decide
theorem test_se_imm_not_taken :
    (stepAt 0x210 0x3310 (State.reset.writeV 3 0x11)).map (·.pc) = some 0x212 := by decide
theorem test_sne_imm_taken :
    (stepAt 0x210 0x4310 (State.reset.writeV 3 0x11)).map (·.pc) = some 0x214 := by decide
theorem test_sne_imm_not_taken :
    (stepAt 0x210 0x4310 (State.reset.writeV 3 0x10)).map (·.pc) = some 0x212 := by decide
theorem test_se_reg_taken :
    (stepAt 0x200 0x5120 (regs2 1 7 2 7)).map (·.pc) = some 0x204 := by decide
theorem test_sne_reg_taken :
    (stepAt 0x200 0x9120 (regs2 1 7 2 8)).map (·.pc) = some 0x204 := by decide
theorem test_sne_reg_same_register :
    (stepAt 0x200 0x9110 (regs2 1 7 2 8)).map (·.pc) = some 0x202 := by decide
theorem test_jp_v0_not_reduced :
    (stepAt 0x200 0xBFFF (State.reset.writeV 0 0xFF)).map (·.pc) = some 0x10FE := by decide

/-! ### One step, arithmetic and logic (95_test_vectors.md 2.3) -/

theorem test_ld_imm :
    (stepAt 0x200 0x6A42 State.reset).map (fun t => (t.readV 0xA, t.pc)) = some (0x42, 0x202) := by decide
theorem test_add_imm_no_carry :
    regPair 0 15 (stepAt 0x200 0x7001 (regs2 0 0xFF 15 0x55)) = some (0x00, 0x55) := by decide
theorem test_ld_reg :
    regPair 1 2 (stepAt 0x200 0x8120 (regs2 1 0 2 0x33)) = some (0x33, 0x33) := by decide
theorem test_or_reg_keeps_vf :
    regPair 1 15 (stepAt 0x200 0x8121 ((regs2 1 0x0F 2 0xF0).writeV 15 0x55)) = some (0xFF, 0x55) := by decide
theorem test_or_reg_vf_destination :
    regPair 15 1 (stepAt 0x200 0x8F11 (regs2 1 0x0F 15 0x55)) = some (0x5F, 0x0F) := by decide
theorem test_and_reg :
    regPair 1 2 (stepAt 0x200 0x8122 (regs2 1 0x3C 2 0x0F)) = some (0x0C, 0x0F) := by decide
theorem test_xor_reg_same_register :
    regPair 1 15 (stepAt 0x200 0x8113 (regs2 1 0xAA 15 0x55)) = some (0x00, 0x55) := by decide
theorem test_add_reg_carry :
    regPair 1 15 (stepAt 0x200 0x8124 (regs2 1 0xFF 2 0x01)) = some (0x00, 1) := by decide
theorem test_add_reg_vf_destination :
    regPair 15 1 (stepAt 0x200 0x8F14 (regs2 15 0x05 1 0x03)) = some (0, 0x03) := by decide
theorem test_sub_reg_equal :
    regPair 1 15 (stepAt 0x200 0x8125 ((regs2 1 5 2 5).writeV 15 1)) = some (0, 0) := by decide
theorem test_sub_reg_vf_operand :
    regPair 1 15 (stepAt 0x200 0x81F5 (regs2 1 0x01 15 0x10)) = some (0xF1, 0) := by decide
theorem test_shr_ignores_y :
    regPair 4 15 (stepAt 0x200 0x8456 (regs2 4 0x04 5 0xFF)) = some (0x02, 0) := by decide
theorem test_shr_vf :
    regPair 15 4 (stepAt 0x200 0x8F06 (withVF 0x02)) = some (0, 0) := by decide
theorem test_subn_reg :
    regPair 1 15 (stepAt 0x200 0x8127 (regs2 1 0x03 2 0x0A)) = some (0x07, 1) := by decide
theorem test_subn_reg_borrow :
    regPair 1 15 (stepAt 0x200 0x8127 (regs2 1 0x0A 2 0x03)) = some (0xF9, 0) := by decide
theorem test_shl :
    regPair 4 15 (stepAt 0x200 0x840E (State.reset.writeV 4 0x81)) = some (0x02, 1) := by decide
theorem test_shl_vf :
    regPair 15 4 (stepAt 0x200 0x8F0E (withVF 0x80)) = some (1, 0) := by decide
theorem test_rnd_mask_0 :
    ∃ t, step (place 0x200 0xC300 (State.reset.writeV 3 0xFF)) = .next t ∧ t.readV 3 = 0 ∧ t.draws = 1 := ⟨_, rfl, BitVec.and_zero, rfl⟩

/-! ### One step, the address register and memory (95_test_vectors.md 2.4) -/

theorem test_ld_i :
    (stepAt 0x200 0xA2F0 { State.reset with i := 0xF000 }).map (fun t => (t.i, t.pc)) = some (0x02F0, 0x202) := by decide
theorem test_add_i_not_reduced :
    (stepAt 0x200 0xF21E { regs2 2 2 15 7 with i := 0x0FFF }).map (fun t => (t.i, t.readV 15)) = some (0x1001, 7) := by decide
theorem test_add_i_wraps :
    (stepAt 0x200 0xF01E { State.reset.writeV 0 1 with i := 0xFFFF }).map (·.i) = some 0x0000 := by decide
theorem test_ld_f_low_nibble :
    (stepAt 0x200 0xF529 (State.reset.writeV 5 0x1B)).map (·.i) = some 0x0037 := by decide
theorem test_ld_f_last_other_base :
    (stepAt 0x200 0xF529 ((State.resetWith highFont).writeV 5 0x0F)).map (·.i) = some 0x009B := by decide
theorem test_ld_b_255 :
    memTriple 0x300 (stepAt 0x200 0xF333 { State.reset.writeV 3 255 with i := 0x300 }) = some (2, 5, 5) := by decide
theorem test_ld_b_wraps :
    memTriple 0xFFE (stepAt 0x200 0xF333 { State.reset.writeV 3 123 with i := 0xFFE }) = some (1, 2, 3) := by decide
theorem test_st_regs_wraps :
    (stepAt 0x200 0xF155 { regs2 0 0x11 1 0x22 with i := 0xFFF }).map
      (fun t => (t.memRead 0xFFF, t.memRead 0x000, t.i)) = some (0x11, 0x22, 0xFFF) := by decide
theorem test_st_regs_one :
    memTriple 0x300 (stepAt 0x200 0xF055 { regs2 0 0x11 1 0x22 with i := 0x300 }) = some (0x11, 0, 0) := by decide
theorem test_ld_regs :
    (stepAt 0x200 0xF265 (sprite [9, 8, 7, 6])).map (fun t => (t.readV 0, t.readV 1, t.readV 2, t.readV 3, t.i)) =
      some (9, 8, 7, 0, 0x300) := by decide
theorem test_ld_regs_address_reduced :
    (stepAt 0x200 0xF065 { sprite [0x5A] with i := 0x1300 }).map (·.readV 0) = some 0x5A := by decide

/-! ### One step, the display (95_test_vectors.md 2.5) -/

theorem test_cls :
    pixels 0 0 63 31 (stepAt 0x200 0x00E0 { withVF 7 with grid := Vector.replicate 64 (Vector.replicate 32 true) }) =
      some (false, false, 7) := by decide
theorem test_drw_wraps :
    pixels 63 0 0 0 (stepAt 0x200 0xD011 ((sprite [0xC0]).writeV 0 0x3F)) = some (true, true, 0) := by decide
theorem test_drw_collides :
    pixels 0 0 1 0 (stepAt 0x200 0xD011 { sprite [0xC0] with grid := Grid.clear.put 0 0 true }) = some (false, true, 1) := by decide
theorem test_drw_vf_column :
    pixels 10 0 0 0 (stepAt 0x200 0xDF01 ((sprite [0x80]).writeV 15 0x0A)) = some (true, false, 0) := by decide

/-! ### One step, keys and timers (95_test_vectors.md 2.6) -/

theorem test_skp_low_nibble :
    (stepAt 0x220 0xE19E (setKeyDown 5 (State.reset.writeV 1 0x15))).map (·.pc) = some 0x224 := by decide
theorem test_skp_released :
    (stepAt 0x220 0xE19E (State.reset.writeV 1 0x05)).map (·.pc) = some 0x222 := by decide
theorem test_sknp_pressed :
    (stepAt 0x220 0xE1A1 (setKeyDown 5 (State.reset.writeV 1 0x05))).map (·.pc) = some 0x222 := by decide
theorem test_sknp_released :
    (stepAt 0x220 0xE1A1 (State.reset.writeV 1 0x05)).map (·.pc) = some 0x224 := by decide
theorem test_ld_vx_dt :
    (stepAt 0x200 0xF307 { State.reset with dt := 0x3C }).map (·.readV 3) = some 0x3C := by decide
theorem test_ld_vx_k_waits :
    (stepAt 0x230 0xF40A State.reset).map (fun t => (t.pc, t.waitKey)) = some (0x230, true) := by decide
theorem test_ld_vx_k_lowest :
    (stepAt 0x230 0xF40A (setKeyDown 3 (setKeyDown 11 { State.reset with waitKey := true }))).map
      (fun t => (t.readV 4, t.pc, t.waitKey)) = some (3, 0x232, false) := by decide
theorem test_ld_dt_vx :
    (stepAt 0x200 0xF215 (State.reset.writeV 2 5)).map (fun t => (t.dt, t.st)) = some (5, 0) := by decide
theorem test_ld_st_vx :
    (stepAt 0x200 0xF218 { State.reset.writeV 2 0 with st := 0x20, dt := 9 }).map (fun t => (t.dt, t.st)) = some (9, 0) := by decide

/-! ### Faults, fetch, the tick and the host (95_test_vectors.md 2.2, 2.7) -/

theorem test_invalid_word_faults :
    (stepAt 0x300 0x5AB1 State.reset).map (fun t => (t.pc, t.fault)) = some (0x300, some ⟨.invalidInstruction, 0x300, 0x5AB1⟩) := by decide
theorem test_fetch_above_memory_wraps :
    (stepAt 0xFFFE 0x6001 State.reset).map (fun t => (t.readV 0, t.pc)) = some (1, 0x0000) := by decide
theorem test_fetch_at_top :
    (stepAt 0x0FFF 0x6001 State.reset).map (fun t => (t.memRead 0xFFF, t.memRead 0x000, t.readV 0)) = some (0x60, 0x01, 1) := by decide
theorem test_reset_tick_faults :
    (tick 4 State.reset).2 = .faulted ∧ (tick 4 State.reset).1.fault = some ⟨.invalidInstruction, 0x200, 0x0000⟩ := by decide
theorem test_faulted_tick_timers :
    ((tick 4 { State.reset with fault := some aFault, dt := 2, st := 1 }).1.dt,
      (tick 4 { State.reset with fault := some aFault, dt := 2, st := 1 }).1.st) = (1, 0) := by decide
theorem test_clear_screen_scenario :
    (tick 1 (load [0x00, 0xE0] State.reset).1).2 = .ok ∧ (tick 1 (load [0x00, 0xE0] State.reset).1).1.pc = 0x202 ∧
      (tick 2 (load [0x00, 0xE0] State.reset).1).2 = .faulted := by decide
theorem test_load_empty :
    load [] State.reset = (State.reset, .ok) := by decide
theorem test_reset_font_at_other_base :
    [0x04F, 0x050, 0x09F, 0x0A0].map (State.resetWith highFont).memRead = [0, 0xFF, 0xFF, 0] := by decide
theorem test_reset_call_keeps_params :
    (hostReset (State.resetWith highFont)).memRead 0x050 = 0xFF ∧ (hostReset (State.resetWith highFont)).memRead 0x000 = 0 := by decide
theorem test_get_out_of_range :
    gridGet 64 0 State.reset = .refused (.gridOutOfRange 64 0) ∧ gridGet 0 32 State.reset = .refused (.gridOutOfRange 0 32) := ⟨rfl, rfl⟩
theorem test_fault_codes :
    (faultCode .invalidInstruction, faultCode .stackOverflow, faultCode .stackUnderflow) = (1, 2, 3) := by decide
theorem test_writing_reset_byte_unlists :
    (State.reset.memWrite 0x000 0xF0).mem = [] ∧ (State.reset.memWrite 0x000 0).mem = [(0, 0)] := by decide

/-! ### Witnesses: a state and operands that meet all the hypotheses of each statement that has any, for each clause at its bounds -/

/-- FX0A at 0x200 with no key pressed. -/
def waiting : State := place 0x200 0xF40A { State.reset with dt := 5 }

/-- A jump to itself at 0x200 with DT = 5. -/
def spinning : State := place 0x200 0x1200 { State.reset with dt := 5 }

theorem witness_EncodeOfDecodeIsTheWord :
    decodeWord 0x845E = .ok (.shl 4 5) := rfl
theorem witness_DecodeAgreesWithOpcodeTable :
    decodeWord 0xF165 = .ok (.ldRegs 1) ∧ (⟨"LD_Vx___I", 0xF0FF, 0xF065⟩ : OpcodeRow) ∈ opcodeTable ∧ (0xF165 : Word) &&& 0xF0FF = 0xF065 := ⟨rfl, by decide, by decide⟩
theorem witness_StepRunsDecodedInstruction :
    spinning.fault = none ∧
      decodeWord (wordOfBytes (spinning.memRead spinning.pc) (spinning.memRead (spinning.pc + 1))) = .ok (.jp 0x200) := ⟨rfl, rfl⟩
theorem witness_InvalidWordTakesFault :
    State.reset.fault = none ∧
      decodeWord (wordOfBytes (State.reset.memRead State.reset.pc) (State.reset.memRead (State.reset.pc + 1))) = .error (.invalid 0x0000) := ⟨rfl, rfl⟩
theorem witness_FaultedMachineHasNoStep :
    ({ State.reset with fault := some aFault } : State).fault = some aFault := rfl
theorem witness_FaultsArePrecise :
    (∃ t, step State.reset = .next t ∧ t.fault = some aFault) ∧
      (∃ t r, step (place 0x400 0x2600 (stackAt 16 0)) = .next t ∧ t.fault = some r) ∧
      (∃ t r, step (place 0x300 0x00EE State.reset) = .next t ∧ t.fault = some r) := ⟨⟨_, rfl, rfl⟩, ⟨_, _, rfl, rfl⟩, ⟨_, _, rfl, rfl⟩⟩
theorem witness_LegalStateAlwaysSteps :
    (stackAt 16 0).fault = none ∧ (stackAt 16 0).sp.toNat ≤ 16 ∧ (stackAt 0 0).fault = none ∧ (stackAt 0 0).sp.toNat ≤ 16 := by decide
theorem witness_CallPushesReturnAddress :
    (stackAt 0 0).sp.toNat < 16 ∧ (stackAt 15 0).sp.toNat < 16 ∧ (stackAt 16 0).sp.toNat = 16 := by decide
theorem witness_ReturnPopsStack :
    (1 ≤ (stackAt 1 0).sp.toNat ∧ (stackAt 1 0).sp.toNat ≤ 16) ∧ (1 ≤ (stackAt 16 0).sp.toNat ∧ (stackAt 16 0).sp.toNat ≤ 16) ∧
      (stackAt 0 0).sp.toNat = 0 := by decide
theorem witness_CallThenReturnRoundTrip :
    (stackAt 0 0).sp.toNat < 16 ∧ (stackAt 15 0).sp.toNat < 16 := by decide
theorem witness_AddAndSubtractWithFlag :
    ((regs2 1 250 15 10).readV 1).toNat = 250 ∧ ((regs2 1 250 15 10).readV 15).toNat = 10 := by decide
theorem witness_ShiftsByOneWithFlag :
    ((withVF 0x81).readV 15).toNat = 129 := by decide
theorem witness_RandomByteMasked :
    (0x0F : Byte).getLsbD 7 = false := by decide
theorem witness_DecimalDigitsStored :
    ((State.reset.writeV 3 255).readV 3).toNat = 255 ∧ (∀ k < 3, mask12 0x303 ≠ ea 0x300 k) := by decide
theorem witness_StoreRegistersToMemory :
    (15 : Nibble).toNat ≤ (15 : Nibble).toNat ∧ (∀ k ≤ 15, mask12 0x310 ≠ ea 0x300 k) := by decide
theorem witness_StoreThenLoadRestoresRegisters :
    ∃ t u : State, exec (.stRegs 15) { regs2 0 1 15 2 with i := 0xFFE } = .next t ∧ u.v ≠ t.v ∧ u.i = t.i ∧ ∀ a : Word, u.memRead a = t.memRead a := ⟨_, { regs2 0 1 15 2 with i := 0xFFE }.storeFrom 0xFFE 0 ((regs2 0 1 15 2).regsUpTo 15) |>.writeV 0 9, rfl, by decide, rfl, fun _ => rfl⟩
theorem witness_DrawInvertsSpriteBits :
    SpriteBit (sprite [0x80]) 63 31 1 63 31 ∧ ¬ SpriteBit (sprite [0x80]) 63 31 0 63 31 := ⟨⟨0, 0, by decide, by decide, rfl, rfl, rfl⟩, fun ⟨_, _, h, _⟩ => absurd h (Nat.not_lt_zero _)⟩
theorem witness_DrawSetsCollisionFlag :
    (SpriteBit (sprite [0xC0]) 0 0 1 0 0 ∧ Grid.get (Grid.clear.put 0 0 true) 0 0 = true) ∧
      ¬ ∃ (px : Fin 64) (py : Fin 32), SpriteBit (sprite [0xC0]) 0 0 0 px py ∧ Grid.get Grid.clear px py = true := ⟨⟨⟨0, 0, by decide, by decide, rfl, rfl, rfl⟩, by decide⟩, fun ⟨_, _, ⟨_, _, h, _⟩, _⟩ => absurd h (Nat.not_lt_zero _)⟩
theorem witness_DrawTwiceRestoresGrid :
    (0 : Nibble) ≠ regVF ∧ (14 : Nibble) ≠ regVF ∧
      (SpriteBit (sprite [0xC0]) 0 0 1 1 0 ∧ Grid.get (sprite [0xC0]).grid 1 0 = false) ∧
      ¬ ∃ (px : Fin 64) (py : Fin 32), SpriteBit (sprite [0xC0]) 0 0 0 px py ∧ Grid.get (sprite [0xC0]).grid px py = false := ⟨by decide, by decide, ⟨⟨0, 1, by decide, by decide, rfl, rfl, rfl⟩, by decide⟩, fun ⟨_, _, ⟨_, _, h, _⟩, _⟩ => absurd h (Nat.not_lt_zero _)⟩
theorem witness_SecondDrawCollidesWhateverTheGrid :
    ∃ t u : State, (0 : Nibble) ≠ regVF ∧ (1 : Nibble) ≠ regVF ∧ exec (.drw 0 1 1) (sprite [0x80]) = .next t ∧ exec (.drw 0 1 1) t = .next u ∧
      SpriteBit (sprite [0x80]) ((sprite [0x80]).readV 0) ((sprite [0x80]).readV 1) 1 0 0 := ⟨_, _, by decide, by decide, rfl, rfl, 0, 0, by decide, by decide, rfl, rfl, rfl⟩
theorem witness_KeySkipsUseLowNibble :
    (5 : Nibble).toNat = ((State.reset.writeV 1 0x15).readV 1).toNat % 16 ∧ (15 : Nibble).toNat = ((State.reset.writeV 1 0xFF).readV 1).toNat % 16 := by decide
theorem witness_KeyWaitTakesLowestKey :
    ((setKeyDown 0 State.reset).keyDown 0 = true ∧ ∀ j : Nibble, j.toNat < 0 → (setKeyDown 0 State.reset).keyDown j = false) ∧
      ((setKeyDown 15 State.reset).keyDown 15 = true ∧ ∀ j : Nibble, j.toNat < 15 → (setKeyDown 15 State.reset).keyDown j = false) := by decide
theorem witness_KeyWaitBlocksWithoutKey :
    ∀ k : Nibble, State.reset.keyDown k = false := by decide
theorem witness_OnlyCallAndReturnMoveSp :
    (∃ t, step (place 0x200 0x2300 (stackAt 15 0)) = .next t ∧ t.sp = 16) ∧ (∃ t, step (place 0x200 0x00EE (stackAt 16 0)) = .next t ∧ t.sp = 15) ∧
      ∃ t u, exec (.ldReg 1 2) (stackAt 3 0) = .next t ∧ exec (.ldReg 1 2) { stackAt 3 0 with sp := 9 } = .next u := ⟨⟨_, rfl, by decide⟩, ⟨_, rfl, by decide⟩, _, _, rfl, rfl⟩
theorem witness_CoreNeverWritesKeys :
    ∃ t, step spinning = .next t := ⟨_, rfl⟩
theorem witness_ExecWritesOnlyItsParts :
    (∃ t, exec (.ldB 3) State.reset = .next t) ∧ ∃ t, exec (.call 0x300) (stackAt 16 0) = .next t := ⟨⟨_, rfl⟩, _, rfl⟩
theorem witness_TickOkRunsItsInstructions :
    (tick 1 spinning).2 = .ok ∧ (tick 0 spinning).2 = .ok ∧ (∃ t, Sys2Proof.core.run 1 spinning = .next t ∧ t.fault = none) ∧
      ∀ (k : Nat) (u : State), k < 1 → Sys2Proof.core.run k spinning = .next u → waitsForKey u = false := by
  refine ⟨by decide, by decide, ⟨_, rfl, rfl⟩, fun k u hk hu => ?_⟩
  obtain rfl : k = 0 := by omega
  cases hu
  decide
theorem witness_TickStopsOnlyAtWaitOrFault :
    waiting.fault = none ∧ waiting.sp.toNat ≤ 16 ∧ (tick 3 waiting).2 = .waiting ∧ (tick 3 State.reset).2 = .faulted := by decide
theorem witness_FaultedTickOnlyDecrementsTimers :
    ({ State.reset with fault := some aFault, dt := 1 } : State).fault = some aFault := rfl
theorem witness_KeyWaitAcrossTicks :
    1 ≤ 1 ∧ waiting.fault = none ∧ decodeWord waiting.fetch = .ok (.ldVxK 4) ∧ (∀ k : Nibble, waiting.keyDown k = false) ∧
      decodeWord (setKeyDown 15 waiting).fetch = .ok (.ldVxK 4) ∧ ∃ k : Nibble, (setKeyDown 15 waiting).keyDown k = true := ⟨by decide, rfl, rfl, by decide, rfl, 15, by decide⟩
theorem witness_DelayTimerCountsDownToZero :
    ∀ k < 6, (runSteps 2 (ticks 2 k spinning)).1.dt = (ticks 2 k spinning).dt := by decide
theorem witness_ResetGivesResetValues :
    (State.resetWith highFont = State.resetWith highFont ∨ ((State.resetWith highFont).params = highFont ∧ State.resetWith highFont = hostReset (State.resetWith highFont))) ∧
      waiting.params = defaultParams ∧ hostReset waiting = hostReset waiting := ⟨.inr ⟨rfl, rfl⟩, rfl, rfl⟩
theorem witness_ResetMemoryIsFontAndZeros :
    79 < 80 ∧ (mask12 0x04F).toNat < highFont.fontBase.val ∧ highFont.fontBase.val + 80 ≤ (mask12 0x0A0).toNat ∧
      defaultParams.fontBase.val + 80 ≤ (mask12 0xFFFF).toNat := by decide
theorem witness_LoadPlacesProgram :
    ([] : List Byte).length ≤ 3584 ∧ (image 3584).length ≤ 3584 ∧ 3584 < (image 3585).length ∧
      (mask12 0x1FF).toNat < 0x200 ∧ 0x200 + [(0x00 : Byte), 0xE0].length ≤ (mask12 0x202).toNat := ⟨by decide, (length_image _).le, by simp [length_image], by decide, by decide⟩
theorem witness_ReloadIsFreshLoad :
    (image 3584).length ≤ 3584 := (length_image _).le
theorem witness_KeyCallsSetOneKey :
    ((0 : Int) ≤ 0 ∧ (0 : Int) ≤ 15) ∧ ((0 : Int) ≤ 15 ∧ (15 : Int) ≤ 15) ∧ ((-1 : Int) < 0 ∨ (15 : Int) < -1) ∧ ((16 : Int) < 0 ∨ (15 : Int) < 16) := by decide
theorem witness_HostReadsGridSoundAndFault :
    (63 : Int) = (63 : Fin 64).val ∧ (31 : Int) = (31 : Fin 32).val ∧ ((64 : Int) < 0 ∨ (64 : Int) ≤ 64 ∨ (0 : Int) < 0 ∨ (32 : Int) ≤ 0) ∧
      ((0 : Int) < 0 ∨ (64 : Int) ≤ 0 ∨ (0 : Int) < 0 ∨ (32 : Int) ≤ 32) := by decide
theorem witness_FaultStaysUntilResetOrLoad :
    ({ State.reset with fault := some aFault } : State).fault = some aFault ∧ HostCall.load (image 3585) ≠ .reset ∧
      (∀ bytes : List Byte, bytes.length ≤ 3584 → HostCall.load (image 3585) ≠ .load bytes) ∧ (image 3584).length ≤ 3584 := by
  refine ⟨rfl, nofun, fun bytes hb h => ?_, (length_image _).le⟩
  injection h with h
  rw [← h, length_image] at hb
  omega
theorem witness_WriteChangesOneByte :
    (0x1300 : Word).toNat % 4096 = (0x300 : Word).toNat % 4096 ∧ (0x301 : Word).toNat % 4096 ≠ (0x300 : Word).toNat % 4096 ∧
      Memory.wf (sprite [1, 2]).params (sprite [1, 2]).mem = true := by decide
theorem witness_FetchWrapsAtTop :
    ({ State.reset with pc := 0xFFF } : State).pc.toNat % 4096 = 0xFFF ∧ ({ State.reset with pc := 0xFFFF } : State).pc.toNat % 4096 = 0xFFF := by decide
theorem witness_StoredWordIsFetchedNext :
    decodeWord 0x6A42 = .ok (.ldImm 0xA 0x42) ∧ mask12 0x202 ≠ mask12 State.reset.pc ∧ mask12 0x202 ≠ mask12 (State.reset.pc + 1) := ⟨rfl, by decide, by decide⟩

/-- A state with a full stack that waits at an FX0A. -/
def fullAndWaiting : State := { place 0x200 0xF40A State.reset with sp := 16, waitKey := true }

theorem witness_StepKeepsInvariant :
    fullAndWaiting.Inv ∧ ∃ t, step fullAndWaiting = .next t := ⟨⟨by decide, by decide, fun _ => ⟨4, rfl⟩, fun _ h => nomatch h⟩, _, rfl⟩
theorem witness_HostCallsKeepInvariant :
    fullAndWaiting.Inv ∧ Reachable 1 (tick 1 State.reset).1 := ⟨⟨by decide, by decide, fun _ => ⟨4, rfl⟩, fun _ h => nomatch h⟩, .call .tick _ (.construct _)⟩

end Sys2Proof.Tests
end

section
/-! The statements about the state as a whole (spec 10_state.md): which instruction writes which part, who moves SP, who writes keys and
parameters, what memory holds after reset, and the invariant. The facts they share come first: what a decoded word says about its bits, the
frame of every instruction, the one way an instruction takes a fault. -/

namespace Sys2Proof

/-! ### What a decoded word says about its bits -/

/-- A decoder's answer is faithful to the word: an instruction it gives is encoded by that word, a word it rejects is rejected as itself
(30_encoding.md R75, R76). -/
def DecodesFaithfully (w : Word) : Except Reject Instr → Prop
  | .ok i => encode i = w
  | .error e => e = .invalid w

section
variable {w : Word} {op : Nibble}

theorem formatA_of_op (hop : (opOf w).toNat = op.toNat) : formatA op (addrOf w) = w := by
  rw [← BitVec.eq_of_toNat_eq hop, formatA_fields]

theorem formatXK_of_op (hop : (opOf w).toNat = op.toNat) : formatXK op (xOf w) (kkOf w) = w := by
  rw [← BitVec.eq_of_toNat_eq hop, formatXK_fields]

theorem formatXK_of_op_kk {kk : Byte} (hop : (opOf w).toNat = op.toNat) (hkk : (kkOf w).toNat = kk.toNat) :
    formatXK op (xOf w) kk = w := by
  rw [← BitVec.eq_of_toNat_eq hkk, formatXK_of_op hop]

theorem formatXYN_of_op (hop : (opOf w).toNat = op.toNat) : formatXYN op (xOf w) (yOf w) (nOf w) = w := by
  rw [← BitVec.eq_of_toNat_eq hop, formatXYN_fields]

theorem formatXYN_of_op_n {n : Nibble} (hop : (opOf w).toNat = op.toNat) (hn : (nOf w).toNat = n.toNat) :
    formatXYN op (xOf w) (yOf w) n = w := by
  rw [← BitVec.eq_of_toNat_eq hn, formatXYN_of_op hop]

end

section
variable (w : Word)

theorem decode0_faithful : DecodesFaithfully w (decode0 w) := by
  unfold decode0
  split
  next h => exact h.symm
  next =>
    split
    next h => exact h.symm
    next => rfl

theorem decode5_faithful (hop : (opOf w).toNat = 0x5) : DecodesFaithfully w (decode5 w) := by
  unfold decode5
  split
  next hn => exact formatXYN_of_op_n hop (congrArg BitVec.toNat hn)
  next => rfl

theorem decode8_faithful (hop : (opOf w).toNat = 0x8) : DecodesFaithfully w (decode8 w) := by
  unfold decode8
  split
  case h_10 => rfl
  all_goals next hn => exact formatXYN_of_op_n hop hn

theorem decode9_faithful (hop : (opOf w).toNat = 0x9) : DecodesFaithfully w (decode9 w) := by
  unfold decode9
  split
  next hn => exact formatXYN_of_op_n hop (congrArg BitVec.toNat hn)
  next => rfl

theorem decodeE_faithful (hop : (opOf w).toNat = 0xE) : DecodesFaithfully w (decodeE w) := by
  unfold decodeE
  split
  case h_3 => rfl
  all_goals next hkk => exact formatXK_of_op_kk hop hkk

theorem decodeF_faithful (hop : (opOf w).toNat = 0xF) : DecodesFaithfully w (decodeF w) := by
  unfold decodeF
  split
  case h_10 => rfl
  all_goals next hkk => exact formatXK_of_op_kk hop hkk

/-- The whole decoder is faithful, family by family of the top nibble (30_encoding.md R75, R76). -/
theorem decodeWord_faithful : DecodesFaithfully w (decodeWord w) := by
  unfold decodeWord
  split
  next => exact decode0_faithful w
  next hop => exact formatA_of_op hop
  next hop => exact formatA_of_op hop
  next hop => exact formatXK_of_op hop
  next hop => exact formatXK_of_op hop
  next hop => exact decode5_faithful w hop
  next hop => exact formatXK_of_op hop
  next hop => exact formatXK_of_op hop
  next hop => exact decode8_faithful w hop
  next hop => exact decode9_faithful w hop
  next hop => exact formatA_of_op hop
  next hop => exact formatA_of_op hop
  next hop => exact formatXK_of_op hop
  next hop => exact formatXYN_of_op hop
  next hop => exact decodeE_faithful w hop
  next hop => exact decodeF_faithful w hop
  next => rfl

end

theorem encode_of_decodeWord {w : Word} {i : Instr} (h : decodeWord w = .ok i) : encode i = w := by
  have hw := decodeWord_faithful w
  rwa [h] at hw

theorem reject_of_decodeWord {w : Word} {e : Reject} (h : decodeWord w = .error e) : e = .invalid w := by
  have hw := decodeWord_faithful w
  rwa [h] at hw

namespace Machine

/-! ### The frame of every instruction -/

/-- When an instruction takes a fault, and which (60_exceptions.md R202, R203). -/
inductive ExecFaults (s : State) : Instr → FaultKind → Prop where
  | overflow (addr : Addr) : s.sp = 16 → ExecFaults s (.call addr) .stackOverflow
  | underflow : s.sp = 0 → ExecFaults s .ret .stackUnderflow

/-- Taking a fault writes the record and nothing else (60_exceptions.md R204). -/
theorem unchanged_raiseFault (s : State) (kind : FaultKind) (w : Word) : Unchanged [.fault] s (s.raiseFault kind w) := by
  apply unchanged_of_fields <;> simp

theorem unchanged_goto (s : State) (w : Word) : Unchanged [.pc] s (s.goto w) := by
  apply unchanged_of_fields <;> simp

/-- New registers and a new PC: the frame of every instruction that writes registers only. -/
theorem unchanged_regs_pc (s : State) (v : Vector Byte 16) (pc : Word) : Unchanged [.regs, .pc] s { s with v := v, pc := pc } := by
  apply unchanged_of_fields <;> simp

/-- A new I and a new PC: the frame of the instructions that set I. -/
theorem unchanged_i_pc (s : State) (i pc : Word) : Unchanged [.i, .pc] s { s with i := i, pc := pc } := by
  apply unchanged_of_fields <;> simp

/-- A sequence of stores and a new PC: the frame of FX33 and FX55. -/
theorem unchanged_mem_pc (s : State) (us : List Byte) : Unchanged [.mem, .pc] s (s.storeFrom s.i 0 us).advance := by
  apply unchanged_of_fields <;> simp

/-- An instruction that answers a next state has kept every part outside its list, or it has taken its fault with its own word as the
opcode. -/
theorem exec_unchanged_or_faults {i : Instr} {s t : State} (h : exec i s = .next t) :
    Unchanged (writtenParts i) s t ∨ ∃ kind, ExecFaults s i kind ∧ t = s.raiseFault kind (encode i) := by
  cases i with
  | ret =>
    rcases execRet_cases h with ⟨h0, rfl⟩ | ⟨hs, -, rfl⟩
    · exact .inr ⟨_, .underflow h0, rfl⟩
    · left; apply unchanged_of_fields <;> simp [writtenParts]
  | call addr =>
    rcases execCall_cases h with ⟨h16, rfl⟩ | ⟨hs, rfl⟩
    · exact .inr ⟨_, .overflow addr h16, rfl⟩
    · left; apply unchanged_of_fields <;> simp [writtenParts]
  | ldVxK x =>
    left
    rcases execLdVxK_cases h with ⟨k, -, rfl⟩ | ⟨-, rfl⟩ <;> apply unchanged_of_fields <;> simp [writtenParts]
  | jp | jpV0 | seImm | sneImm | seReg | sneReg | skp | sknp => cases h; exact .inl (unchanged_goto s _)
  | ldImm | addImm | ldReg | orReg | andReg | xorReg | addReg | subReg | shr | subnReg | shl | ldVxDt =>
    cases h; exact .inl (unchanged_regs_pc s _ _)
  | ldRegs x => cases h; rw [State.loadRegs_eq]; exact .inl (unchanged_regs_pc s _ _)
  | ldI | addI | ldF => cases h; exact .inl (unchanged_i_pc s _ _)
  | ldB | stRegs => cases h; exact .inl (unchanged_mem_pc s _)
  | cls | rnd | drw | ldDtVx | ldStVx => cases h; left; apply unchanged_of_fields <;> simp [writtenParts]

theorem fault_notMem_writtenParts (i : Instr) : Part.fault ∉ writtenParts i := by cases i <;> simp [writtenParts]
theorem key_notMem_writtenParts (i : Instr) : Part.key ∉ writtenParts i := by cases i <;> simp [writtenParts]
theorem params_notMem_writtenParts (i : Instr) : Part.params ∉ writtenParts i := by cases i <;> simp [writtenParts]

theorem waitKey_notMem_writtenParts {i : Instr} (hi : ∀ x, i ≠ .ldVxK x) : Part.waitKey ∉ writtenParts i := by
  cases i with
  | ldVxK x => exact absurd rfl (hi x)
  | _ => simp [writtenParts]

theorem sp_notMem_writtenParts {i : Instr} (hr : i ≠ .ret) (hc : ∀ addr, i ≠ .call addr) : Part.sp ∉ writtenParts i := by
  cases i with
  | ret => exact absurd rfl hr
  | call addr => exact absurd rfl (hc addr)
  | _ => simp [writtenParts]

/-- Any part but the fault record that an instruction does not list is kept, whether it faults or not. -/
theorem exec_same {i : Instr} {s t : State} {p : Part} (h : exec i s = .next t) (hp : p ∉ writtenParts i) (hf : p ≠ .fault) :
    p.Same s t := by
  rcases exec_unchanged_or_faults h with hu | ⟨kind, -, rfl⟩
  · exact hu p hp
  · exact unchanged_raiseFault s kind _ p (by simpa using hf)

/-- Settles O42, from the frame of every instruction. -/
theorem execWritesOnlyItsParts : Obligations.ExecWritesOnlyItsParts := by
  unfold Obligations.ExecWritesOnlyItsParts
  intro i s t h
  rcases exec_unchanged_or_faults h with hu | ⟨kind, hk, rfl⟩
  · exact .inl ⟨hu .fault (fault_notMem_writtenParts i), hu⟩
  · refine .inr ⟨⟨_, rfl⟩, unchanged_raiseFault s kind _, ?_⟩
    cases hk with
    | overflow addr _ => exact .inr ⟨addr, rfl⟩
    | underflow _ => exact .inl rfl

/-! ### Keys and parameters -/

/-- What every step keeps, the instruction phase of a tick keeps (60_exceptions.md R209). -/
theorem runSteps_induct {P : State → Prop} (hstep : ∀ s t, P s → step s = .next t → P t) (n : Nat) {s : State} (h : P s) :
    P (runSteps n s).1 := by
  induction n generalizing s with
  | zero => exact h
  | succ n ih =>
    unfold runSteps
    split
    next t ht =>
      have hP := hstep s t h ht
      split
      · exact hP
      · split
        · exact hP
        · exact ih hP
    next => exact h
    next => exact h

/-- What every step and the decrement of the timers keep, a tick keeps (60_exceptions.md R209, R210). -/
theorem tick_induct {P : State → Prop} (hstep : ∀ s t, P s → step s = .next t → P t) (htimers : ∀ s, P s → P s.timersDown)
    (ipt : Nat) {s : State} (h : P s) : P (tick ipt s).1 := by
  unfold tick
  split
  · exact htimers s h
  · exact htimers _ (runSteps_induct hstep ipt h)

theorem step_key_params {s t : State} (h : step s = .next t) : t.key = s.key ∧ t.params = s.params := by
  obtain ⟨-, ⟨i, -, hi⟩ | ⟨-, rfl⟩⟩ := step_next_cases h
  · exact ⟨exec_same hi (key_notMem_writtenParts i) nofun, exec_same hi (params_notMem_writtenParts i) nofun⟩
  · exact ⟨rfl, rfl⟩

theorem tick_key_params (ipt : Nat) (s : State) : (tick ipt s).1.key = s.key ∧ (tick ipt s).1.params = s.params :=
  tick_induct (P := fun t => t.key = s.key ∧ t.params = s.params)
    (fun _ _ ⟨hk, hp⟩ h => have ⟨hk', hp'⟩ := step_key_params h; ⟨hk'.trans hk, hp'.trans hp⟩) (fun _ h => h) ipt ⟨rfl, rfl⟩

theorem load_params (bytes : List Byte) (s : State) : (load bytes s).1.params = s.params := by
  unfold load
  split <;> simp

theorem setKey_params (index : Int) (b : Bool) (s : State) : (setKey index b s).params = s.params := by
  unfold setKey
  split <;> rfl

/-- Settles O41, from the frame of a step, carried through the tick. -/
theorem coreNeverWritesKeys : Obligations.CoreNeverWritesKeys := by
  unfold Obligations.CoreNeverWritesKeys
  refine ⟨fun s t h => step_key_params h, fun ipt s => (tick_key_params ipt s).1, fun ipt c s => ?_⟩
  cases c with
  | tick => exact (tick_key_params ipt s).2
  | reset => rfl
  | load bytes => exact load_params bytes s
  | setKeyDown index => exact setKey_params index true s
  | setKeyUp index => exact setKey_params index false s

/-! ### The stack pointer -/

/-- What a step does to SP: nothing, a push below 16 by CALL, or a pop above 0 by RET (10_state.md R26). -/
theorem step_sp_cases {s t : State} (h : step s = .next t) :
    t.sp = s.sp ∨
    (∃ addr, decodeWord s.fetch = .ok (.call addr) ∧ s.sp.toNat < 16 ∧ t.sp = s.sp + 1) ∨
    (decodeWord s.fetch = .ok .ret ∧ s.sp ≠ 0 ∧ t.sp = s.sp - 1) := by
  obtain ⟨-, ⟨i, hd, hi⟩ | ⟨-, rfl⟩⟩ := step_next_cases h
  · by_cases hr : i = .ret
    · subst hr
      rcases execRet_cases hi with ⟨-, rfl⟩ | ⟨-, h0, rfl⟩
      · exact .inl rfl
      · exact .inr (.inr ⟨hd, h0, rfl⟩)
    by_cases hc : ∃ addr, i = .call addr
    · obtain ⟨addr, rfl⟩ := hc
      rcases execCall_cases hi with ⟨-, rfl⟩ | ⟨hs, rfl⟩
      · exact .inl rfl
      · exact .inr (.inl ⟨addr, hd, hs, rfl⟩)
    · exact .inl (exec_same hi (sp_notMem_writtenParts hr (not_exists.1 hc)) nofun)
  · exact .inl rfl

theorem step_sp_le {s t : State} (h : step s = .next t) (hs : s.sp.toNat ≤ 16) : t.sp.toNat ≤ 16 := by
  rcases step_sp_cases h with hsp | ⟨-, -, hlt, hsp⟩ | ⟨-, h0, hsp⟩
  · rwa [hsp]
  · rw [hsp]; bv_omega
  · rw [hsp]; bv_omega

/-- A draw in progress reads memory and I of the state alone. -/
theorem Canvas.drawRows_congr {s t : State} (hm : t.mem = s.mem) (hp : t.params = s.params) (hi : t.i = s.i) (c : Canvas) (cx cy : Byte)
    (n : Nat) : c.drawRows t cx cy n = c.drawRows s cx cy n := by
  induction n with
  | zero => rfl
  | succ n ih => simp only [Canvas.drawRows, ih, hi, State.memRead_congr hm hp]

/-- No instruction reads SP into a register: executed with another SP, it leaves the same registers (10_state.md R26). -/
theorem exec_readV_of_sp {i : Instr} {s t u : State} {sp : Byte} (ht : exec i s = .next t) (hu : exec i { s with sp := sp } = .next u)
    (x : Nibble) : u.readV x = t.readV x := by
  by_cases hregs : Part.regs ∈ writtenParts i
  · cases i with
    | ldImm | addImm | ldReg | orReg | andReg | xorReg | addReg | subReg | shr | subnReg | shl | rnd | ldVxDt =>
      cases ht; cases hu; rfl
    | ldVxK y =>
      rcases execLdVxK_cases ht with ⟨k, hk, rfl⟩ | ⟨hk, rfl⟩ <;> rcases execLdVxK_cases hu with ⟨k', hk', rfl⟩ | ⟨hk', rfl⟩
      · obtain rfl : k' = k := Option.some.inj (hk'.symm.trans hk)
        rfl
      · cases hk'.symm.trans hk
      · cases hk'.symm.trans hk
      · rfl
    | ldRegs y =>
      cases ht; cases hu
      have hy : y.toNat + 1 ≤ 16 := y.isLt
      exact (State.readV_loadRegs _ _ hy x).trans (State.readV_loadRegs s _ hy x).symm
    | drw y z n =>
      cases ht; cases hu
      have hc := Canvas.drawRows_congr (s := s) (t := { s with sp := sp }) rfl rfl rfl
      rw [hc]; rfl
    | _ => simp [writtenParts] at hregs
  · have hst : t.readV x = s.readV x := exec_same ht hregs nofun x
    have hsu : u.readV x = s.readV x := exec_same hu hregs nofun x
    rw [hst, hsu]

/-- Settles O40, from what a step does to SP and from what the registers are computed from. -/
theorem onlyCallAndReturnMoveSp : Obligations.OnlyCallAndReturnMoveSp := by
  unfold Obligations.OnlyCallAndReturnMoveSp
  refine ⟨rfl, fun s t h hs => step_sp_le h hs, fun s t h hne => ?_, fun i s t u sp ht hu x => exec_readV_of_sp ht hu x⟩
  rcases step_sp_cases h with hsp | ⟨addr, hd, -, hsp⟩ | ⟨hd, -, hsp⟩
  · exact absurd hsp hne
  · exact .inl ⟨addr, hd, hsp⟩
  · exact .inr ⟨hd, hsp⟩

/-! ### The invariant -/

/-- A step that leaves a fault record has taken a fault that the state explains, with the word at PC as the opcode
(60_exceptions.md R201 to R204). -/
theorem step_fault_cases {s t : State} (h : step s = .next t) :
    t.fault = none ∨ ∃ kind : FaultKind, kind.Explains s ∧ t = s.raiseFault kind s.fetch := by
  obtain ⟨hf, ⟨i, hd, hi⟩ | ⟨⟨e, hd⟩, rfl⟩⟩ := step_next_cases h
  · rcases exec_unchanged_or_faults hi with hu | ⟨kind, hk, rfl⟩
    · have hsame : t.fault = s.fault := hu .fault (fault_notMem_writtenParts i)
      exact .inl (hsame.trans hf)
    · refine .inr ⟨kind, ?_, by rw [encode_of_decodeWord hd]⟩
      cases hk with
      | overflow addr h16 => exact ⟨h16, addr, hd⟩
      | underflow h0 => exact ⟨h0, hd⟩
  · refine .inr ⟨.invalidInstruction, ?_, rfl⟩
    rwa [reject_of_decodeWord hd] at hd

/-- A fault just taken describes the instruction at PC, which it has not moved (60_exceptions.md R204). -/
theorem faultCoherent_raiseFault {s : State} {kind : FaultKind} (hk : kind.Explains s) :
    FaultCoherent (s.raiseFault kind s.fetch) := by
  intro r hr
  cases hr
  refine ⟨rfl, rfl, ?_⟩
  cases kind <;> exact hk

theorem step_faultCoherent {s t : State} (h : step s = .next t) : FaultCoherent t := by
  rcases step_fault_cases h with hf | ⟨kind, hk, rfl⟩
  · intro r hr
    cases hf.symm.trans hr
  · exact faultCoherent_raiseFault hk

/-- After a step wait_key is set only if the step was a Wait, or if it was set before at another instruction than FX0A
(44_keys_timers.md R184). -/
theorem step_waitKey_cases {s t : State} (h : step s = .next t) (hw : t.waitKey = true) :
    ((∃ x, decodeWord s.fetch = .ok (.ldVxK x)) ∧ t = s.wait) ∨
    ((∀ x, decodeWord s.fetch ≠ .ok (.ldVxK x)) ∧ s.waitKey = true) := by
  obtain ⟨-, ⟨i, hd, hi⟩ | ⟨⟨e, hd⟩, rfl⟩⟩ := step_next_cases h
  · by_cases hx : ∃ x, i = .ldVxK x
    · obtain ⟨x, rfl⟩ := hx
      rcases execLdVxK_cases hi with ⟨k, -, rfl⟩ | ⟨-, rfl⟩
      · cases hw
      · exact .inl ⟨⟨x, hd⟩, rfl⟩
    · have hsame : t.waitKey = s.waitKey := exec_same hi (waitKey_notMem_writtenParts (not_exists.1 hx)) nofun
      refine .inr ⟨fun x hx' => hx ⟨x, ?_⟩, hsame.symm.trans hw⟩
      exact Except.ok.inj (hd.symm.trans hx')
  · exact .inr ⟨fun x hx => (nomatch hd.symm.trans hx), hw⟩

theorem step_waitCoherent {s t : State} (hs : WaitCoherent s) (h : step s = .next t) : WaitCoherent t := by
  intro hw
  rcases step_waitKey_cases h hw with ⟨hx, rfl⟩ | ⟨hno, hw'⟩
  · exact hx
  · obtain ⟨x, hx⟩ := hs hw'
    exact absurd hx (hno x)

/-- Memory is written by FX33 and FX55 only, and their stores keep the canonical form. -/
theorem exec_wf {i : Instr} {s t : State} (hm : Memory.wf s.params s.mem = true) (h : exec i s = .next t) :
    Memory.wf t.params t.mem = true := by
  cases i with
  | ldB | stRegs => cases h; simpa using State.wf_storeFrom _ _ _ hm
  | ldRegs => cases h; simpa using hm
  | ret => rcases execRet_cases h with ⟨-, rfl⟩ | ⟨-, -, rfl⟩ <;> exact hm
  | call => rcases execCall_cases h with ⟨-, rfl⟩ | ⟨-, rfl⟩ <;> exact hm
  | ldVxK => rcases execLdVxK_cases h with ⟨_, -, rfl⟩ | ⟨-, rfl⟩ <;> exact hm
  | _ => cases h; exact hm

theorem step_wf {s t : State} (hm : Memory.wf s.params s.mem = true) (h : step s = .next t) : Memory.wf t.params t.mem = true := by
  obtain ⟨-, ⟨i, -, hi⟩ | ⟨-, rfl⟩⟩ := step_next_cases h
  · exact exec_wf hm hi
  · exact hm

/-- Settles O59, part by part of the invariant. -/
theorem stepKeepsInvariant : Obligations.StepKeepsInvariant := by
  unfold Obligations.StepKeepsInvariant
  intro s t hs h
  exact {
    spLegal := step_sp_le h hs.spLegal
    memCanonical := step_wf hs.memCanonical h
    waitCoherent := step_waitCoherent hs.waitCoherent h
    faultCoherent := step_faultCoherent h }

theorem inv_resetWith (p : Config.Params) : (State.resetWith p).Inv where
  spLegal := Nat.zero_le _
  memCanonical := rfl
  waitCoherent := nofun
  faultCoherent := nofun

/-- Settles O58: at construction memory lists nothing, SP is 0, and there is neither a wait nor a fault record. -/
theorem invariantHoldsAtReset : Obligations.InvariantHoldsAtReset :=
  ⟨inv_resetWith defaultParams, inv_resetWith⟩

/-! ### Memory after reset -/

/-- The font lies below 512, so its addresses are already reduced (20_memory.md R57). -/
theorem toNat_mask12_fontAddr (p : Config.Params) {k : Nat} (hk : k < 80) :
    (mask12 (BitVec.ofNat 16 (p.fontBase.val + k))).toNat = p.fontBase.val + k := by
  have := p.fontBase.isLt
  rw [toNat_mask12, BitVec.toNat_ofNat]
  omega

/-- Settles O49, from what reset leaves at each address. -/
theorem resetMemoryIsFontAndZeros : Obligations.ResetMemoryIsFontAndZeros := by
  unfold Obligations.ResetMemoryIsFontAndZeros
  refine ⟨fun p k hk => ?_, fun p a ha => ?_, by decide⟩
  · rw [memRead_resetWith, toNat_mask12_fontAddr p hk, resetByte_font p k hk]
  · rw [memRead_resetWith, resetByte_other p _ ha]

end Machine

end Sys2Proof
end

section
/-! The statements about memory (spec 20_memory.md): a write changes one byte, a fetch wraps at the top of memory, and a word placed at PC
is the next one fetched. -/

namespace Sys2Proof

/-- A word laid out by the host's bit numbering is itself. -/
theorem tableWord_toNat (w : Word) : tableWord 16 w.toNat = w := by
  rw [tableWord, Nat.mod_eq_of_lt w.isLt, BitVec.ofNat_toNat, BitVec.setWidth_eq]

namespace Machine

/-! ### Aliases of an address -/

/-- Settles O55, from read after write and from the canonical form a write keeps. -/
theorem writeChangesOneByte : Obligations.WriteChangesOneByte := by
  unfold Obligations.WriteChangesOneByte
  refine fun s a b u => ⟨fun hab => ?_, fun hab => ?_, State.wf_memWrite a u⟩
  · rw [State.memRead_memWrite, if_pos ((mask12_eq_iff b a).2 hab.symm)]
  · rw [State.memRead_memWrite, if_neg fun h => hab ((mask12_eq_iff b a).1 h).symm]

/-- A read gives the same byte at two addresses that are equal modulo 4096 (20_memory.md R51). -/
theorem State.memRead_alias (s : State) {a b : Word} (h : a.toNat % 4096 = b.toNat % 4096) : s.memRead a = s.memRead b := by
  rw [← State.memRead_mask12, (mask12_eq_iff a b).2 h, State.memRead_mask12]

/-- Settles O56: PC is an alias of 0xFFF and PC + 1 one of 0x000. -/
theorem fetchWrapsAtTop : Obligations.FetchWrapsAtTop := by
  unfold Obligations.FetchWrapsAtTop
  intro s hpc
  have hnext : (s.pc + 1).toNat % 4096 = 0 := by bv_omega
  rw [State.fetch, s.memRead_alias (b := 0xFFF) hpc, s.memRead_alias (b := 0x000) hnext]

/-! ### A word placed at PC -/

@[simp] theorem State.withFetchWord_pc (s : State) (nbits w : Nat) : (s.withFetchWord nbits w).pc = s.pc := rfl
@[simp] theorem State.withFetchWord_fault (s : State) (nbits w : Nat) : (s.withFetchWord nbits w).fault = none := rfl

/-- The two bytes of a fetch never share an address (20_memory.md R56). -/
theorem mask12_ne_mask12_succ (a : Word) : mask12 a ≠ mask12 (a + 1) := by
  rw [Ne, mask12_eq_iff]
  bv_omega

/-- What memory reads as once a word is placed at PC: its high byte at PC, its low byte at PC + 1, and the rest as before
(20_memory.md R54). -/
theorem State.memRead_withFetchWord (s : State) (w a : Word) :
    (s.withFetchWord 16 w.toNat).memRead a =
      if mask12 a = mask12 (s.pc + 1) then loByte w else if mask12 a = mask12 s.pc then hiByte w else s.memRead a := by
  calc (s.withFetchWord 16 w.toNat).memRead a
      = ((s.memWrite s.pc (hiByte w)).memWrite (s.pc + 1) (loByte w)).memRead a := by
        rw [State.withFetchWord, tableWord_toNat]; rfl
    _ = _ := by rw [State.memRead_memWrite, State.memRead_memWrite]

/-- Placing a word writes memory and clears the fault record, nothing else. -/
theorem unchanged_withFetchWord (s : State) (nbits w : Nat) : Unchanged [.mem, .fault] s (s.withFetchWord nbits w) := by
  apply unchanged_of_fields <;> simp [State.withFetchWord]

/-- A placed word is the one fetched: a fetch sees the bytes as they are now (20_memory.md R64, D20). -/
theorem State.fetch_withFetchWord (s : State) (w : Word) : (s.withFetchWord 16 w.toNat).fetch = w := by
  have hhi : (s.withFetchWord 16 w.toNat).memRead s.pc = hiByte w := by
    rw [State.memRead_withFetchWord, if_neg (mask12_ne_mask12_succ s.pc), if_pos rfl]
  have hlo : (s.withFetchWord 16 w.toNat).memRead (s.pc + 1) = loByte w := by
    rw [State.memRead_withFetchWord, if_pos rfl]
  rw [State.fetch, State.withFetchWord_pc, hhi, hlo, wordOfBytes_bytes]

/-- Settles O57: the placed word is fetched, no fault record is left to stop the step, and the placing has its frame. -/
theorem storedWordIsFetchedNext : Obligations.StoredWordIsFetchedNext := by
  unfold Obligations.StoredWordIsFetchedNext
  refine fun s w i hd => ⟨step_of_decode (s.withFetchWord_fault 16 _) ?_, fun a hhi hlo => ?_, unchanged_withFetchWord s 16 w.toNat⟩
  · rw [State.fetch_withFetchWord, hd]
  · rw [State.memRead_withFetchWord, if_neg hlo, if_neg hhi]

end Machine

end Sys2Proof
end

section
/-! The statements about encoding (spec 30_encoding.md): decoding and encoding are inverse, the decoder agrees with the masks and matches of
the opcode table, the invalid words are those listed, and what a step of a decoded or rejected word answers. -/

namespace Sys2Proof

/-! ### Decoding and encoding are inverse -/

/-- Every instruction's own round trip, taken together (30_encoding.md R75). -/
theorem decodeWord_encode (i : Instr) : decodeWord (encode i) = .ok i := by
  cases i with
  | cls => exact Laws.RoundTrip.cls
  | ret => exact Laws.RoundTrip.ret
  | jp addr => exact Laws.RoundTrip.jp addr
  | call addr => exact Laws.RoundTrip.call addr
  | seImm x kk => exact Laws.RoundTrip.seImm x kk
  | sneImm x kk => exact Laws.RoundTrip.sneImm x kk
  | seReg x y => exact Laws.RoundTrip.seReg x y
  | ldImm x kk => exact Laws.RoundTrip.ldImm x kk
  | addImm x kk => exact Laws.RoundTrip.addImm x kk
  | ldReg x y => exact Laws.RoundTrip.ldReg x y
  | orReg x y => exact Laws.RoundTrip.orReg x y
  | andReg x y => exact Laws.RoundTrip.andReg x y
  | xorReg x y => exact Laws.RoundTrip.xorReg x y
  | addReg x y => exact Laws.RoundTrip.addReg x y
  | subReg x y => exact Laws.RoundTrip.subReg x y
  | shr x y => exact Laws.RoundTrip.shr x y
  | subnReg x y => exact Laws.RoundTrip.subnReg x y
  | shl x y => exact Laws.RoundTrip.shl x y
  | sneReg x y => exact Laws.RoundTrip.sneReg x y
  | ldI addr => exact Laws.RoundTrip.ldI addr
  | jpV0 addr => exact Laws.RoundTrip.jpV0 addr
  | rnd x kk => exact Laws.RoundTrip.rnd x kk
  | drw x y n => exact Laws.RoundTrip.drw x y n
  | skp x => exact Laws.RoundTrip.skp x
  | sknp x => exact Laws.RoundTrip.sknp x
  | ldVxDt x => exact Laws.RoundTrip.ldVxDt x
  | ldVxK x => exact Laws.RoundTrip.ldVxK x
  | ldDtVx x => exact Laws.RoundTrip.ldDtVx x
  | ldStVx x => exact Laws.RoundTrip.ldStVx x
  | addI x => exact Laws.RoundTrip.addI x
  | ldF x => exact Laws.RoundTrip.ldF x
  | ldB x => exact Laws.RoundTrip.ldB x
  | stRegs x => exact Laws.RoundTrip.stRegs x
  | ldRegs x => exact Laws.RoundTrip.ldRegs x

/-- A word decodes to an instruction exactly when it is that instruction's word. -/
theorem decodeWord_eq_ok_iff {w : Word} {i : Instr} : decodeWord w = .ok i ↔ encode i = w :=
  ⟨encode_of_decodeWord, fun h => h ▸ decodeWord_encode i⟩

/-- The two bytes of an instruction decode to it, and the bytes after them come back (30_encoding.md R70, R71). -/
theorem decodeBytes_encodeBytes (i : Instr) (rest : List Byte) : decodeBytes (encodeBytes i ++ rest) = .ok (i, rest) := by
  have h := decodeBytes_bytes (encode i) rest
  rwa [decodeWord_encode] at h

/-- Settles O2, instruction by instruction for the word, and for the bytes because a word is its two bytes. -/
theorem decodeOfEncodeIsTheInstruction : Obligations.DecodeOfEncodeIsTheInstruction :=
  fun i rest => ⟨decodeWord_encode i, decodeBytes_encodeBytes i rest⟩

/-- Settles O3: every family of the decoder is faithful to the word. -/
theorem encodeOfDecodeIsTheWord : Obligations.EncodeOfDecodeIsTheWord :=
  fun _ _ => encode_of_decodeWord

/-! ### The opcode table

Its masks are F000, F00F, F0FF and FFFF: each keeps whole fields and clears the others. -/

theorem formatA_and (op op' : Nibble) (addr addr' : Addr) :
    formatA op addr &&& formatA op' addr' = formatA (op &&& op') (addr &&& addr') :=
  BitVec.and_append

theorem formatXK_and (op op' x x' : Nibble) (kk kk' : Byte) :
    formatXK op x kk &&& formatXK op' x' kk' = formatXK (op &&& op') (x &&& x') (kk &&& kk') := by
  apply BitVec.eq_of_getLsbD_eq; intro i _
  simp only [BitVec.getLsbD_and, getLsbD_formatXK]
  split_ifs <;> rfl

theorem formatXYN_and (op op' x x' y y' n n' : Nibble) :
    formatXYN op x y n &&& formatXYN op' x' y' n' = formatXYN (op &&& op') (x &&& x') (y &&& y') (n &&& n') := by
  apply BitVec.eq_of_getLsbD_eq; intro i _
  simp only [BitVec.getLsbD_and, getLsbD_formatXYN]
  split_ifs <;> rfl

section
variable (w : Word)

/-- Mask F000 keeps the field op. -/
theorem and_F000 : w &&& 0xF000 = formatA (opOf w) 0 :=
  calc w &&& 0xF000 = formatA (opOf w) (addrOf w) &&& formatA (BitVec.allOnes 4) 0#12 := by rw [formatA_fields]; rfl
    _ = formatA (opOf w) 0 := by rw [formatA_and, BitVec.and_allOnes, BitVec.and_zero]; rfl

/-- Mask F00F keeps the fields op and n. -/
theorem and_F00F : w &&& 0xF00F = formatXYN (opOf w) 0 0 (nOf w) :=
  calc w &&& 0xF00F
      = formatXYN (opOf w) (xOf w) (yOf w) (nOf w) &&& formatXYN (BitVec.allOnes 4) 0#4 0#4 (BitVec.allOnes 4) := by
        rw [formatXYN_fields]; rfl
    _ = formatXYN (opOf w) 0 0 (nOf w) := by simp only [formatXYN_and, BitVec.and_allOnes, BitVec.and_zero]; rfl

/-- Mask F0FF keeps the fields op and kk. -/
theorem and_F0FF : w &&& 0xF0FF = formatXK (opOf w) 0 (kkOf w) :=
  calc w &&& 0xF0FF
      = formatXK (opOf w) (xOf w) (kkOf w) &&& formatXK (BitVec.allOnes 4) 0#4 (BitVec.allOnes 8) := by
        rw [formatXK_fields]; rfl
    _ = formatXK (opOf w) 0 (kkOf w) := by simp only [formatXK_and, BitVec.and_allOnes, BitVec.and_zero]; rfl

end

/-- The mask of an instruction's row: it covers every bit that is no operand (30_encoding.md R75). -/
def maskOf : Instr → Word
  | .cls | .ret => 0xFFFF
  | .seReg .. | .ldReg .. | .orReg .. | .andReg .. | .xorReg .. | .addReg .. | .subReg .. | .shr .. | .subnReg .. | .shl ..
  | .sneReg .. => 0xF00F
  | .skp _ | .sknp _ | .ldVxDt _ | .ldVxK _ | .ldDtVx _ | .ldStVx _ | .addI _ | .ldF _ | .ldB _ | .stRegs _ | .ldRegs _ => 0xF0FF
  | _ => 0xF000

/-- The row that an instruction's own word matches. -/
def rowOf (i : Instr) : OpcodeRow := ⟨mnemonicOf i, maskOf i, encode i &&& maskOf i⟩

/-- The row of every instruction stands in the table: the operands are masked out of the match, and what is left is a closed row. -/
theorem rowOf_mem_opcodeTable (i : Instr) : rowOf i ∈ opcodeTable := by
  cases i with
  | cls | ret => decide
  | jp | call | ldI | jpV0 =>
    simp only [rowOf, maskOf, encode, mnemonicOf, and_F000, opOf_formatA]; decide
  | seImm | sneImm | ldImm | addImm | rnd =>
    simp only [rowOf, maskOf, encode, mnemonicOf, and_F000, opOf_formatXK]; decide
  | drw =>
    simp only [rowOf, maskOf, encode, mnemonicOf, and_F000, opOf_formatXYN]; decide
  | seReg | ldReg | orReg | andReg | xorReg | addReg | subReg | shr | subnReg | shl | sneReg =>
    simp only [rowOf, maskOf, encode, mnemonicOf, and_F00F, opOf_formatXYN, nOf_formatXYN]; decide
  | skp | sknp | ldVxDt | ldVxK | ldDtVx | ldStVx | addI | ldF | ldB | stRegs | ldRegs =>
    simp only [rowOf, maskOf, encode, mnemonicOf, and_F0FF, opOf_formatXK, kkOf_formatXK]; decide

section
variable {w : Word} (op : Nibble)

/-- A match under mask F000 fixes the field op. -/
theorem opOf_of_match (h : w &&& 0xF000 = formatA op 0) : (opOf w).toNat = op.toNat := by
  rw [and_F000] at h
  have hop : opOf w = op := by simpa using congrArg opOf h
  rw [hop]

theorem formatA_of_match (h : w &&& 0xF000 = formatA op 0) : formatA op (addrOf w) = w :=
  formatA_of_op (opOf_of_match op h)

theorem formatXK_of_match (h : w &&& 0xF000 = formatA op 0) : formatXK op (xOf w) (kkOf w) = w :=
  formatXK_of_op (opOf_of_match op h)

theorem formatXYN_of_match (h : w &&& 0xF000 = formatA op 0) : formatXYN op (xOf w) (yOf w) (nOf w) = w :=
  formatXYN_of_op (opOf_of_match op h)

theorem formatXYN_of_match_n (n : Nibble) (h : w &&& 0xF00F = formatXYN op 0 0 n) : formatXYN op (xOf w) (yOf w) n = w := by
  rw [and_F00F] at h
  have hop : opOf w = op := by simpa using congrArg opOf h
  have hn : nOf w = n := by simpa using congrArg nOf h
  rw [← hop, ← hn, formatXYN_fields]

theorem formatXK_of_match_kk (kk : Byte) (h : w &&& 0xF0FF = formatXK op 0 kk) : formatXK op (xOf w) kk = w := by
  rw [and_F0FF] at h
  have hop : opOf w = op := by simpa using congrArg opOf h
  have hkk : kkOf w = kk := by simpa using congrArg kkOf h
  rw [← hop, ← hkk, formatXK_fields]

end

/-- The word, if it matches the row, is the word of some instruction of the row's mnemonic. -/
def MatchEncodes (w : Word) (row : OpcodeRow) : Prop :=
  w &&& row.mask = row.matchBits → ∃ i : Instr, encode i = w ∧ mnemonicOf i = row.mnemonic

section
variable (w : Word)

theorem matchEncodes_low : ∀ row ∈ opcodeRowsLow, MatchEncodes w row := by
  simp only [opcodeRowsLow, List.forall_mem_cons, List.not_mem_nil, IsEmpty.forall_iff, implies_true, and_true]
  exact ⟨fun h => ⟨.cls, h.symm.trans BitVec.and_allOnes, rfl⟩,
    fun h => ⟨.ret, h.symm.trans BitVec.and_allOnes, rfl⟩,
    fun h => ⟨.jp (addrOf w), formatA_of_match 0x1 h, rfl⟩,
    fun h => ⟨.call (addrOf w), formatA_of_match 0x2 h, rfl⟩,
    fun h => ⟨.seImm (xOf w) (kkOf w), formatXK_of_match 0x3 h, rfl⟩,
    fun h => ⟨.sneImm (xOf w) (kkOf w), formatXK_of_match 0x4 h, rfl⟩,
    fun h => ⟨.seReg (xOf w) (yOf w), formatXYN_of_match_n 0x5 0x0 h, rfl⟩,
    fun h => ⟨.ldImm (xOf w) (kkOf w), formatXK_of_match 0x6 h, rfl⟩,
    fun h => ⟨.addImm (xOf w) (kkOf w), formatXK_of_match 0x7 h, rfl⟩⟩

theorem matchEncodes_alu : ∀ row ∈ opcodeRowsAlu, MatchEncodes w row := by
  simp only [opcodeRowsAlu, List.forall_mem_cons, List.not_mem_nil, IsEmpty.forall_iff, implies_true, and_true]
  exact ⟨fun h => ⟨.ldReg (xOf w) (yOf w), formatXYN_of_match_n 0x8 0x0 h, rfl⟩,
    fun h => ⟨.orReg (xOf w) (yOf w), formatXYN_of_match_n 0x8 0x1 h, rfl⟩,
    fun h => ⟨.andReg (xOf w) (yOf w), formatXYN_of_match_n 0x8 0x2 h, rfl⟩,
    fun h => ⟨.xorReg (xOf w) (yOf w), formatXYN_of_match_n 0x8 0x3 h, rfl⟩,
    fun h => ⟨.addReg (xOf w) (yOf w), formatXYN_of_match_n 0x8 0x4 h, rfl⟩,
    fun h => ⟨.subReg (xOf w) (yOf w), formatXYN_of_match_n 0x8 0x5 h, rfl⟩,
    fun h => ⟨.shr (xOf w) (yOf w), formatXYN_of_match_n 0x8 0x6 h, rfl⟩,
    fun h => ⟨.subnReg (xOf w) (yOf w), formatXYN_of_match_n 0x8 0x7 h, rfl⟩,
    fun h => ⟨.shl (xOf w) (yOf w), formatXYN_of_match_n 0x8 0xE h, rfl⟩⟩

theorem matchEncodes_mid : ∀ row ∈ opcodeRowsMid, MatchEncodes w row := by
  simp only [opcodeRowsMid, List.forall_mem_cons, List.not_mem_nil, IsEmpty.forall_iff, implies_true, and_true]
  exact ⟨fun h => ⟨.sneReg (xOf w) (yOf w), formatXYN_of_match_n 0x9 0x0 h, rfl⟩,
    fun h => ⟨.ldI (addrOf w), formatA_of_match 0xA h, rfl⟩,
    fun h => ⟨.jpV0 (addrOf w), formatA_of_match 0xB h, rfl⟩,
    fun h => ⟨.rnd (xOf w) (kkOf w), formatXK_of_match 0xC h, rfl⟩,
    fun h => ⟨.drw (xOf w) (yOf w) (nOf w), formatXYN_of_match 0xD h, rfl⟩,
    fun h => ⟨.skp (xOf w), formatXK_of_match_kk 0xE 0x9E h, rfl⟩,
    fun h => ⟨.sknp (xOf w), formatXK_of_match_kk 0xE 0xA1 h, rfl⟩⟩

theorem matchEncodes_f : ∀ row ∈ opcodeRowsF, MatchEncodes w row := by
  simp only [opcodeRowsF, List.forall_mem_cons, List.not_mem_nil, IsEmpty.forall_iff, implies_true, and_true]
  exact ⟨fun h => ⟨.ldVxDt (xOf w), formatXK_of_match_kk 0xF 0x07 h, rfl⟩,
    fun h => ⟨.ldVxK (xOf w), formatXK_of_match_kk 0xF 0x0A h, rfl⟩,
    fun h => ⟨.ldDtVx (xOf w), formatXK_of_match_kk 0xF 0x15 h, rfl⟩,
    fun h => ⟨.ldStVx (xOf w), formatXK_of_match_kk 0xF 0x18 h, rfl⟩,
    fun h => ⟨.addI (xOf w), formatXK_of_match_kk 0xF 0x1E h, rfl⟩,
    fun h => ⟨.ldF (xOf w), formatXK_of_match_kk 0xF 0x29 h, rfl⟩,
    fun h => ⟨.ldB (xOf w), formatXK_of_match_kk 0xF 0x33 h, rfl⟩,
    fun h => ⟨.stRegs (xOf w), formatXK_of_match_kk 0xF 0x55 h, rfl⟩,
    fun h => ⟨.ldRegs (xOf w), formatXK_of_match_kk 0xF 0x65 h, rfl⟩⟩

/-- A word that matches a row of the table is the word of an instruction of that row, whose operands are the fields outside the mask. -/
theorem matchEncodes : ∀ row ∈ opcodeTable, MatchEncodes w row := by
  simp only [opcodeTable, List.forall_mem_append]
  exact ⟨⟨⟨matchEncodes_low w, matchEncodes_alu w⟩, matchEncodes_mid w⟩, matchEncodes_f w⟩

end

/-- Settles O4: a word that decodes matches the row of its instruction, and a word that matches a row is the word of an instruction of
that row, to which it decodes. -/
theorem decodeAgreesWithOpcodeTable : Obligations.DecodeAgreesWithOpcodeTable := by
  unfold Obligations.DecodeAgreesWithOpcodeTable
  refine ⟨fun w i hd => ⟨rowOf i, rowOf_mem_opcodeTable i, rfl, ?_⟩, fun w row hrow hmatch => ?_⟩
  · obtain rfl := encode_of_decodeWord hd
    rfl
  · obtain ⟨i, hi, hmn⟩ := matchEncodes w row hrow hmatch
    exact ⟨i, decodeWord_eq_ok_iff.2 hi, hmn⟩

/-! ### The invalid words -/

section
variable {w : Word}

theorem decode0_eq_error_iff : decode0 w = .error (.invalid w) ↔ w ≠ 0x00E0 ∧ w ≠ 0x00EE := by
  unfold decode0
  split
  next h => simp [h]
  next h =>
    split
    next h' => simp [h']
    next h' => exact ⟨fun _ => ⟨h, h'⟩, fun _ => rfl⟩

theorem decode5_eq_error_iff : decode5 w = .error (.invalid w) ↔ nOf w ≠ 0 := by
  unfold decode5
  split
  next h => simp [h]
  next h => exact ⟨fun _ => h, fun _ => rfl⟩

theorem decode9_eq_error_iff : decode9 w = .error (.invalid w) ↔ nOf w ≠ 0 := by
  unfold decode9
  split
  next h => simp [h]
  next h => exact ⟨fun _ => h, fun _ => rfl⟩

theorem decode8_eq_error_iff :
    decode8 w = .error (.invalid w) ↔ nOf w ∈ ([0x8, 0x9, 0xA, 0xB, 0xC, 0xD, 0xF] : List Nibble) := by
  unfold decode8
  split
  case h_10 =>
    have := (nOf w).isLt
    simp only [imp_false] at *
    simp only [BitVec.ofNat_eq_ofNat, List.mem_cons, ← BitVec.toNat_inj, BitVec.toNat_ofNat, Nat.reducePow, Nat.reduceMod, Nat.mod_succ,
      List.not_mem_nil, or_false, true_iff]
    omega
  all_goals next hn => simp [← BitVec.toNat_inj, hn]

theorem decodeE_eq_error_iff : decodeE w = .error (.invalid w) ↔ kkOf w ∉ ([0x9E, 0xA1] : List Byte) := by
  unfold decodeE
  split
  case h_3 =>
    simp only [imp_false] at *
    simp [← BitVec.toNat_inj, *]
  all_goals next hkk => simp [← BitVec.toNat_inj, hkk]

theorem decodeF_eq_error_iff :
    decodeF w = .error (.invalid w) ↔ kkOf w ∉ ([0x07, 0x0A, 0x15, 0x18, 0x1E, 0x29, 0x33, 0x55, 0x65] : List Byte) := by
  unfold decodeF
  split
  case h_10 =>
    simp only [imp_false] at *
    simp [← BitVec.toNat_inj, *]
  all_goals next hkk => simp [← BitVec.toNat_inj, hkk]

end

/-- Settles O5, family by family of the top nibble: a family without a rejected word is not listed. -/
theorem invalidWordsAreThoseListed : Obligations.InvalidWordsAreThoseListed := by
  unfold Obligations.InvalidWordsAreThoseListed
  intro w
  unfold decodeWord
  split
  case h_17 =>
    have := (opOf w).isLt
    simp only [imp_false] at *
    omega
  all_goals next hop =>
    simp [← BitVec.toNat_inj (x := opOf w), hop, decode0_eq_error_iff, decode5_eq_error_iff, decode8_eq_error_iff, decode9_eq_error_iff,
      decodeE_eq_error_iff, decodeF_eq_error_iff]

/-! ### The step -/

namespace Machine

/-- What the execution of an instruction answers: a next state, or the stop of CALL and RET at an SP above 16 (log 24). -/
theorem exec_outcome (i : Instr) (s : State) :
    (∃ t, exec i s = .next t) ∨ (16 < s.sp.toNat ∧ exec i s = .fault (.spOutOfRange s.sp)) := by
  cases i with
  | ret =>
    show (∃ t, execRet s = .next t) ∨ (_ ∧ execRet s = _)
    unfold execRet
    split
    · exact .inl ⟨_, rfl⟩
    · split
      · exact .inl ⟨_, rfl⟩
      · exact .inr ⟨by omega, rfl⟩
  | call addr =>
    show (∃ t, execCall addr s = .next t) ∨ (_ ∧ execCall addr s = _)
    unfold execCall
    split
    · exact .inl ⟨_, rfl⟩
    next h16 =>
      split
      · exact .inl ⟨_, rfl⟩
      · exact .inr ⟨by bv_omega, rfl⟩
  | ldVxK x =>
    show (∃ t, execLdVxK x s = .next t) ∨ _
    unfold execLdVxK
    split <;> exact .inl ⟨_, rfl⟩
  | _ => exact .inl ⟨_, rfl⟩

/-- What a step answers: a next state, the halt of a machine with a fault record, or the stop at an SP above 16. -/
theorem step_outcome (s : State) :
    (∃ t, step s = .next t) ∨ (∃ r, s.fault = some r ∧ step s = .fault (.halted r)) ∨
    (16 < s.sp.toNat ∧ step s = .fault (.spOutOfRange s.sp)) := by
  cases hf : s.fault with
  | some r => exact .inr (.inl ⟨r, rfl, by simp only [step, hf]⟩)
  | none =>
    cases hd : decodeWord s.fetch with
    | error e => exact .inl ⟨_, step_of_reject hf hd⟩
    | ok i =>
      rw [step_of_decode hf hd]
      rcases exec_outcome i s with hn | hs
      · exact .inl hn
      · exact .inr (.inr hs)

/-- Settles O10: of the three outcomes of a step, none is a refusal, and the two stops need a fault record or an SP above 16. -/
theorem legalStateAlwaysSteps : Obligations.LegalStateAlwaysSteps := by
  unfold Obligations.LegalStateAlwaysSteps
  refine ⟨fun s hf hsp => ?_, fun s r hr => ?_⟩
  · rcases step_outcome s with hn | ⟨r, hf', -⟩ | ⟨hsp', -⟩
    · exact hn
    · cases hf.symm.trans hf'
    · omega
  · rcases step_outcome s with ⟨t, h⟩ | ⟨_, -, h⟩ | ⟨-, h⟩ <;> cases h.symm.trans hr

/-- Settles O6: the two bytes at PC, big-endian, are the word a step fetches. -/
theorem stepRunsDecodedInstruction : Obligations.StepRunsDecodedInstruction :=
  fun _ _ hf hd => step_of_decode hf hd

end Machine

/-- Settles O1: each of the 24 words is a closed case of the decoder. -/
theorem specWordsDecodeAsListed : Obligations.SpecWordsDecodeAsListed := by
  unfold Obligations.SpecWordsDecodeAsListed
  decide

end Sys2Proof
end

section
/-! The statements about control transfer (spec 40_flow.md): jumps, the return stack and the register skips. Their encodings are the
encoder's words; their frames are those of PC, of a push, of a pop and of a fault. -/

namespace Sys2Proof.Machine

/-! ### Jumps -/

theorem toNat_zextAddr (addr : Addr) : (zextAddr addr).toNat = addr.toNat := by
  simp only [zextAddr, BitVec.toNat_setWidth]
  omega

/-- The target of JP V0 is at most 0xFFF + 0xFF, so the sum of 16 bits does not wrap (40_flow.md R107). -/
theorem toNat_zextAddr_add_zextByte (addr : Addr) (u : Byte) : (zextAddr addr + zextByte u).toNat = addr.toNat + u.toNat := by
  have := addr.isLt
  have := u.isLt
  simp only [zextAddr, zextByte, BitVec.toNat_add, BitVec.toNat_setWidth]
  omega

/-- Settles O11: the jump is one write of PC. -/
theorem jumpSetsPc : Obligations.JumpSetsPc := by
  unfold Obligations.JumpSetsPc
  intro addr s
  exact ⟨decodeWord_eq_ok_iff.2 (wordA_eq 0x1 addr).symm, _, rfl, toNat_zextAddr addr, unchanged_goto s _⟩

/-- Settles O16: the jump is one write of PC, and its sum does not wrap. -/
theorem jumpV0Target : Obligations.JumpV0Target := by
  unfold Obligations.JumpV0Target
  intro addr s
  exact ⟨_, rfl, toNat_zextAddr_add_zextByte addr (s.readV 0), unchanged_goto s _⟩

/-! ### The return stack -/

section
variable {s : State}

/-- CALL with room on the stack pushes and jumps (40_flow.md R102). -/
theorem execCall_of_lt (addr : Addr) (h : s.sp.toNat < 16) :
    execCall addr s = .next ((s.push (s.pc + 2) h).goto (zextAddr addr)) := by
  have hne : s.sp ≠ 16 := by bv_omega
  simp only [execCall, if_neg hne, dif_pos h]

/-- CALL with a full stack overflows (60_exceptions.md R202). -/
theorem execCall_of_full (addr : Addr) (h : s.sp = 16) :
    execCall addr s = .next (s.raiseFault .stackOverflow (encode (.call addr))) := by
  simp only [execCall, if_pos h]

/-- RET with an entry on the stack pops it (40_flow.md R100). -/
theorem execRet_of_pos (h0 : s.sp ≠ 0) (h : s.sp.toNat - 1 < 16) : execRet s = .next (s.popGoto h) := by
  simp only [execRet, if_neg h0, dif_pos h]

/-- RET with an empty stack underflows (60_exceptions.md R203). -/
theorem execRet_of_empty (h : s.sp = 0) : execRet s = .next (s.raiseFault .stackUnderflow (encode .ret)) := by
  simp only [execRet, if_pos h]

/-- A stack entry after a push (40_flow.md R102). -/
theorem State.getElem_stack_push (w : Word) (h : s.sp.toNat < 16) {j : Nat} (hj : j < 16) :
    (s.push w h).stack[j] = if j = s.sp.toNat then w else s.stack[j] := by
  simp only [State.push_stack, Vector.getElem_set, eq_comm]

theorem unchanged_push_goto (w a : Word) (h : s.sp.toNat < 16) : Unchanged [.stack, .sp, .pc] s ((s.push w h).goto a) := by
  apply unchanged_of_fields <;> simp

theorem unchanged_popGoto (h : s.sp.toNat - 1 < 16) : Unchanged [.sp, .pc] s (s.popGoto h) := by
  apply unchanged_of_fields <;> simp

/-- A pop after a push finds the pushed word, wherever the machine has jumped between them. -/
theorem State.popGoto_push_pc (w a : Word) (h : s.sp.toNat < 16) (h' : ((s.push w h).goto a).sp.toNat - 1 < 16) :
    (((s.push w h).goto a).popGoto h').pc = w := by
  have htop : (s.sp + 1).toNat - 1 = s.sp.toNat := by bv_omega
  exact (State.getElem_stack_push w h h').trans (if_pos htop)

/-- A pop after a push brings SP back; the pushed entry stays (D31, log 23), so the stack and PC are all that may differ. -/
theorem unchanged_popGoto_push (w a : Word) (h : s.sp.toNat < 16) (h' : ((s.push w h).goto a).sp.toNat - 1 < 16) :
    Unchanged [.stack, .pc] s (((s.push w h).goto a).popGoto h') := by
  apply unchanged_of_fields <;> simp

end

/-- Settles O12, by whether the stack has room or is full. -/
theorem callPushesReturnAddress : Obligations.CallPushesReturnAddress := by
  unfold Obligations.CallPushesReturnAddress
  intro addr s
  refine ⟨decodeWord_eq_ok_iff.2 (wordA_eq 0x2 addr).symm, fun h => ?_, fun h => ?_⟩
  · have hsp : (s.sp + 1).toNat = s.sp.toNat + 1 := by bv_omega
    exact ⟨_, execCall_of_lt addr h, fun j hj => State.getElem_stack_push _ h hj, hsp, toNat_zextAddr addr, unchanged_push_goto _ _ h⟩
  · exact ⟨_, execCall_of_full addr (BitVec.eq_of_toNat_eq h), ⟨_, rfl, rfl⟩, unchanged_raiseFault s _ _⟩

/-- Settles O13, by whether the stack has an entry or is empty. -/
theorem returnPopsStack : Obligations.ReturnPopsStack := by
  unfold Obligations.ReturnPopsStack
  intro s
  refine ⟨fun ⟨hpos, hle⟩ => ?_, fun h => ?_⟩
  · have h0 : s.sp ≠ 0 := by bv_omega
    have hsp : (s.sp - 1).toNat = s.sp.toNat - 1 := by bv_omega
    have hidx : s.sp.toNat - 1 < 16 := by omega
    exact ⟨_, execRet_of_pos h0 hidx, rfl, hsp, unchanged_popGoto hidx⟩
  · exact ⟨_, execRet_of_empty (BitVec.eq_of_toNat_eq h), rfl, unchanged_raiseFault s _ _⟩

/-- Settles O14: the call's SP is one above an SP below 16, so the return pops what the call pushed. -/
theorem callThenReturnRoundTrip : Obligations.CallThenReturnRoundTrip := by
  unfold Obligations.CallThenReturnRoundTrip
  intro addr s h
  have h0 : s.sp + 1 ≠ 0 := by bv_omega
  have hidx : (s.sp + 1).toNat - 1 < 16 := by bv_omega
  exact ⟨_, _, execCall_of_lt addr h, execRet_of_pos h0 hidx, State.popGoto_push_pc _ _ h hidx, unchanged_popGoto_push _ _ h hidx⟩

/-! ### The register skips -/

/-- The shared skip has the outcome of a skip (40_flow.md R108). -/
theorem skipResult_skipIf (s : State) (c : Prop) [Decidable c] : SkipResult s (s.skipIf (decide c)) c :=
  ⟨fun h => by simp [h], fun h => by simp [h], unchanged_goto s _⟩

section
variable (x y : Nibble) {n : Nibble}

/-- 5xyn with n not 0 is no instruction (30_encoding.md R76). -/
theorem decodeWord_wordXYN_5 (hn : n ≠ 0) :
    decodeWord (wordXYN 0x5000 x y n) = .error (.invalid (wordXYN 0x5000 x y n)) := by
  rw [show wordXYN 0x5000 x y n = formatXYN 0x5 x y n from wordXYN_eq 0x5 x y n]
  calc decodeWord (formatXYN 0x5 x y n) = decode5 (formatXYN 0x5 x y n) := by simp [decodeWord]
    _ = _ := decode5_eq_error_iff.2 (by rwa [nOf_formatXYN])

/-- 9xyn with n not 0 is no instruction (30_encoding.md R76). -/
theorem decodeWord_wordXYN_9 (hn : n ≠ 0) :
    decodeWord (wordXYN 0x9000 x y n) = .error (.invalid (wordXYN 0x9000 x y n)) := by
  rw [show wordXYN 0x9000 x y n = formatXYN 0x9 x y n from wordXYN_eq 0x9 x y n]
  calc decodeWord (formatXYN 0x9 x y n) = decode9 (formatXYN 0x9 x y n) := by simp [decodeWord]
    _ = _ := decode9_eq_error_iff.2 (by rwa [nOf_formatXYN])

end

/-- Settles O15: the words are the encoder's, and each skip is the shared one at its own condition. -/
theorem registerSkips : Obligations.RegisterSkips := by
  unfold Obligations.RegisterSkips
  intro x y kk s
  exact ⟨decodeWord_eq_ok_iff.2 (wordXK_eq 0x3 x kk).symm, decodeWord_eq_ok_iff.2 (wordXK_eq 0x4 x kk).symm,
    decodeWord_eq_ok_iff.2 (wordXYN_eq 0x5 x y 0).symm, decodeWord_eq_ok_iff.2 (wordXYN_eq 0x9 x y 0).symm,
    fun n hn => ⟨decodeWord_wordXYN_5 x y hn, decodeWord_wordXYN_9 x y hn⟩,
    ⟨_, rfl, skipResult_skipIf s _⟩, ⟨_, rfl, skipResult_skipIf s _⟩,
    ⟨_, rfl, skipResult_skipIf s _⟩, ⟨_, rfl, skipResult_skipIf s _⟩⟩

end Sys2Proof.Machine
end

section
/-! The statements about register loads and arithmetic (spec 41_alu.md). Every instruction of the family writes one register, or a result
and then its flag, and advances: the effect of those two shapes is said once, and each instruction supplies its own values. -/

namespace Sys2Proof.Machine

/-! ### The two shapes of a register instruction -/

section
variable (s : State) (x : Nibble) (u f : Byte)

theorem regsUnchanged_writeV : RegsUnchanged [x] s (s.writeV x u).advance := fun r hr =>
  (State.readV_writeV s x r u).trans (if_neg (by simpa using hr))

theorem getLsbD_readV_writeV (j : Nat) : ((s.writeV x u).advance.readV x).getLsbD j = u.getLsbD j :=
  congrArg (BitVec.getLsbD · j) (State.readV_writeV_self s x u)

variable {x u f}

/-- A write of one register and an advance (41_alu.md R123 to R128). -/
theorem oneRegisterResult_writeV {result : Nat} (hu : u.toNat = result) : OneRegisterResult s (s.writeV x u).advance x result :=
  ⟨(congrArg BitVec.toNat (State.readV_writeV_self s x u)).trans hu, regsUnchanged_writeV s x u, rfl, unchanged_regs_pc s _ _⟩

/-- A result, then its flag, and an advance: the flag is written last, so it is what VF holds even where x is 15 (41_alu.md R122; D4,
log 8). -/
theorem resultAndFlag_writeResultFlag {result flag : Nat} (hu : u.toNat = result) (hf : f.toNat = flag) :
    ResultAndFlag s (s.writeResultFlag x u f).advance x result flag := by
  have hread (r : Nibble) : (s.writeResultFlag x u f).advance.readV r = if r = regVF then f else if r = x then u else s.readV r :=
    State.readV_writeResultFlag s x r u f
  refine ⟨?_, fun hx => ?_, fun r hr => ?_, rfl, unchanged_regs_pc s _ _⟩
  · rw [hread, if_pos rfl, hf]
  · rw [hread, if_neg hx, if_pos rfl, hu]
  · obtain ⟨hrx, hrVF⟩ : r ≠ x ∧ r ≠ regVF := by simpa using hr
    rw [hread, if_neg hrVF, if_neg hrx]

end

/-! ### Results and flags as numbers -/

section
variable (a b : Byte)

theorem toNat_flagByte (c : Prop) [Decidable c] : (flagByte (decide c)).toNat = if c then 1 else 0 := by
  by_cases hc : c <;> simp [flagByte, hc]

theorem toNat_lowBitFlag : (lowBitFlag a).toNat = a.toNat % 2 := by
  simp [lowBitFlag, Nat.and_one_is_mod]

theorem toNat_highBitFlag : (highBitFlag a).toNat = a.toNat / 128 := by
  simp [highBitFlag, Nat.shiftRight_eq_div_pow]

/-- A difference of bytes, with 256 added before the subtraction of naturals (41_alu.md R130, R132). -/
theorem toNat_sub_byte : (a - b).toNat = (a.toNat + 256 - b.toNat) % 256 := by
  bv_omega

theorem toNat_shr_one : (a >>> 1).toNat = a.toNat / 2 := by
  simp [Nat.shiftRight_eq_div_pow]

theorem toNat_shl_one : (a <<< 1).toNat = 2 * a.toNat % 256 := by
  simp [Nat.shiftLeft_eq, Nat.mul_comm]

end

/-! ### The statements -/

/-- Settles O20: the three differ in the result and the flag they give the flag-last write, both made of the operands on entry. -/
theorem addAndSubtractWithFlag : Obligations.AddAndSubtractWithFlag := by
  unfold Obligations.AddAndSubtractWithFlag
  rintro x y s _ _ rfl rfl
  exact ⟨⟨_, rfl, resultAndFlag_writeResultFlag s (BitVec.toNat_add _ _) (toNat_flagByte _)⟩,
    ⟨_, rfl, resultAndFlag_writeResultFlag s (toNat_sub_byte _ _) (toNat_flagByte _)⟩,
    ⟨_, rfl, resultAndFlag_writeResultFlag s (toNat_sub_byte _ _) (toNat_flagByte _)⟩⟩

/-- Settles O21: both shifts are the flag-last write of V[x] shifted and the bit shifted out; neither reads V[y]. -/
theorem shiftsByOneWithFlag : Obligations.ShiftsByOneWithFlag := by
  unfold Obligations.ShiftsByOneWithFlag
  rintro x y s _ rfl
  exact ⟨⟨_, rfl, resultAndFlag_writeResultFlag s (toNat_shr_one _) (toNat_lowBitFlag _)⟩,
    ⟨_, rfl, resultAndFlag_writeResultFlag s (toNat_shl_one _) (toNat_highBitFlag _)⟩⟩

/-- Settles O17: the words are the encoder's, and each load is one register write. -/
theorem loadsSetOneRegister : Obligations.LoadsSetOneRegister := by
  unfold Obligations.LoadsSetOneRegister
  intro x y kk s
  exact ⟨decodeWord_eq_ok_iff.2 (wordXK_eq 0x6 x kk).symm, decodeWord_eq_ok_iff.2 (wordXYN_eq 0x8 x y 0).symm,
    ⟨_, rfl, oneRegisterResult_writeV s rfl⟩, ⟨_, rfl, oneRegisterResult_writeV s rfl⟩⟩

/-- Settles O18: one register write, of the sum modulo 256. -/
theorem addImmediateSetsNoFlag : Obligations.AddImmediateSetsNoFlag := by
  unfold Obligations.AddImmediateSetsNoFlag
  intro x kk s
  exact ⟨_, rfl, oneRegisterResult_writeV s (BitVec.toNat_add _ _)⟩

/-- Settles O19: each is one register write, of a byte whose bits are those of the operands combined. -/
theorem logicOpsSetNoFlag : Obligations.LogicOpsSetNoFlag := by
  unfold Obligations.LogicOpsSetNoFlag
  intro x y s
  exact ⟨⟨_, rfl, fun j _ => (getLsbD_readV_writeV s x _ j).trans BitVec.getLsbD_or, regsUnchanged_writeV s x _, rfl, unchanged_regs_pc s _ _⟩,
    ⟨_, rfl, fun j _ => (getLsbD_readV_writeV s x _ j).trans BitVec.getLsbD_and, regsUnchanged_writeV s x _, rfl, unchanged_regs_pc s _ _⟩,
    ⟨_, rfl, fun j _ => (getLsbD_readV_writeV s x _ j).trans BitVec.getLsbD_xor, regsUnchanged_writeV s x _, rfl, unchanged_regs_pc s _ _⟩⟩

/-- RND keeps every part but the registers, the draw counter and PC (41_alu.md R134). -/
theorem unchanged_writeV_draws (s : State) (x : Nibble) (u : Byte) (n : Nat) :
    Unchanged [.regs, .draws, .pc] s { (s.writeV x u).advance with draws := n } := by
  apply unchanged_of_fields <;> simp

/-- Settles O22: one register write, of the free byte masked, for whatever byte is drawn. -/
theorem randomByteMasked : Obligations.RandomByteMasked := by
  unfold Obligations.RandomByteMasked
  intro x kk s
  exact ⟨_, rfl, State.readV_writeV_self s x _,
    fun j _ hj => (getLsbD_readV_writeV s x _ j).trans (by rw [BitVec.getLsbD_and, hj, Bool.and_false]),
    rfl, regsUnchanged_writeV s x _, rfl, unchanged_writeV_draws s x _ _⟩

end Sys2Proof.Machine
end

section
/-! The statements about the address register and the memory transfers (spec 42_index_memory.md). The values I receives are computed once as
numbers; what a transfer between registers and memory leaves at each address and in each register is said once, for the machine advanced. -/

namespace Sys2Proof.Machine

/-! ### The address register -/

/-- FX29 adds at most 75 to a FONT_BASE of at most 432, so the sum of 16 bits does not wrap (42_index_memory.md R143). -/
theorem toNat_glyphAddr (p : Config.Params) (u : Byte) : (glyphAddr p u).toNat = p.fontBase.val + 5 * (u.toNat % 16) := by
  have hnibble : (u &&& 0x0F).toNat = u.toNat % 16 := (BitVec.toNat_and u 0x0F).trans (Nat.and_two_pow_sub_one_eq_mod u.toNat 4)
  have hfive : (5 : Word).toNat = 5 := rfl
  have hbase := p.fontBase.isLt
  simp only [glyphAddr, zextByte, BitVec.toNat_add, BitVec.toNat_mul, BitVec.toNat_setWidth, toNat_fontBaseWord, hnibble, hfive]
  omega

/-- ADD I, Vx has no flag: I takes the sum modulo 65536 (42_index_memory.md R142). -/
theorem toNat_add_zextByte (w : Word) (u : Byte) : (w + zextByte u).toNat = (w.toNat + u.toNat) % 65536 := by
  have hu : (zextByte u).toNat = u.toNat := BitVec.toNat_setWidth_of_le (by decide)
  rw [BitVec.toNat_add, hu]

/-- Settles O23: the word is the encoder's, and the load is one write of I. -/
theorem loadIndexRegister : Obligations.LoadIndexRegister := by
  unfold Obligations.LoadIndexRegister
  intro addr s
  exact ⟨decodeWord_eq_ok_iff.2 (wordA_eq 0xA addr).symm, _, rfl, toNat_zextAddr addr, rfl, unchanged_i_pc s _ _⟩

/-- Settles O24: one write of I, of the sum modulo 65536. -/
theorem addToIndexRegister : Obligations.AddToIndexRegister := by
  unfold Obligations.AddToIndexRegister
  intro x s
  exact ⟨_, rfl, toNat_add_zextByte s.i (s.readV x), rfl, unchanged_i_pc s _ _⟩

/-- Settles O25: one write of I, of a sum that does not wrap. -/
theorem fontGlyphAddress : Obligations.FontGlyphAddress := by
  unfold Obligations.FontGlyphAddress
  intro x s
  exact ⟨_, rfl, toNat_glyphAddr s.params (s.readV x), rfl, unchanged_i_pc s _ _⟩

/-! ### What a transfer leaves -/

section
variable (s : State)

/-- A transfer to memory leaves its j-th byte at EA(j). -/
theorem State.memRead_storeFrom_advance {us : List Byte} (hl : us.length ≤ 4096) {j : Nat} (hj : j < us.length) :
    (s.storeFrom s.i 0 us).advance.memRead (ea s.i j) = us[j] := by
  have h := State.memRead_storeFrom s s.i 0 us hl j hj
  rwa [Nat.zero_add] at h

/-- A transfer to memory leaves every byte outside its addresses. -/
theorem State.memRead_storeFrom_advance_other {us : List Byte} {b : Word} (h : ∀ k < us.length, mask12 b ≠ ea s.i k) :
    (s.storeFrom s.i 0 us).advance.memRead b = s.memRead b :=
  State.memRead_storeFrom_other s s.i 0 us b fun j hj => by simpa using h j hj

/-- The bytes FX33 stores, as numbers (42_index_memory.md R144). -/
theorem toNat_memRead_decimalDigits (u : Byte) :
    ((s.storeFrom s.i 0 (decimalDigits u)).advance.memRead (ea s.i 0)).toNat = u.toNat / 100 ∧
    ((s.storeFrom s.i 0 (decimalDigits u)).advance.memRead (ea s.i 1)).toNat = u.toNat / 10 % 10 ∧
    ((s.storeFrom s.i 0 (decimalDigits u)).advance.memRead (ea s.i 2)).toNat = u.toNat % 10 := by
  have hu := u.isLt
  have hread {j : Nat} (hj : j < 3) :
      (s.storeFrom s.i 0 (decimalDigits u)).advance.memRead (ea s.i j) = (decimalDigits u)[j] :=
    s.memRead_storeFrom_advance (us := decimalDigits u) (show 3 ≤ 4096 by decide) hj
  refine ⟨?_, ?_, ?_⟩ <;> rw [hread (by decide)] <;> exact Nat.mod_eq_of_lt (by omega)

/-- FX55 leaves V[k] at EA(k) (42_index_memory.md R145). -/
theorem State.memRead_storeRegs {x k : Nibble} (hk : k.toNat ≤ x.toNat) :
    (s.storeFrom s.i 0 (s.regsUpTo x)).advance.memRead (ea s.i k.toNat) = s.readV k := by
  have hlen := s.length_regsUpTo x
  have hx := x.isLt
  calc (s.storeFrom s.i 0 (s.regsUpTo x)).advance.memRead (ea s.i k.toNat)
      = (s.regsUpTo x)[k.toNat] := s.memRead_storeFrom_advance (by omega) (by omega)
    _ = s.readV (BitVec.ofNat 4 k.toNat) := s.getElem_regsUpTo x k.toNat _
    _ = s.readV k := by rw [BitVec.ofNat_toNat, BitVec.setWidth_eq]

/-- FX65 leaves the byte at EA(k) in V[k] up to V[x], and the registers above as they were (42_index_memory.md R146). -/
theorem State.readV_loadRegs_advance (x k : Nibble) :
    (s.loadRegs (x.toNat + 1)).advance.readV k = if k.toNat ≤ x.toNat then s.memRead (ea s.i k.toNat) else s.readV k :=
  (State.readV_loadRegs s (x.toNat + 1) x.isLt k).trans (by simp only [Nat.lt_succ_iff])

/-- A transfer to registers keeps I and memory (D8, log 11). -/
theorem unchanged_loadRegs (n : Nat) : Unchanged [.regs, .pc] s (s.loadRegs n).advance := by
  apply unchanged_of_fields <;> simp

end

/-! ### The transfers -/

/-- Settles O26: the store of three bytes, the decimal digits. -/
theorem decimalDigitsStored : Obligations.DecimalDigitsStored := by
  unfold Obligations.DecimalDigitsStored
  rintro x s _ rfl
  obtain ⟨hhundreds, htens, hones⟩ := toNat_memRead_decimalDigits s (s.readV x)
  exact ⟨_, rfl, hhundreds, htens, hones, fun b hb => s.memRead_storeFrom_advance_other hb, rfl, unchanged_mem_pc s _⟩

/-- Settles O27: the store of x + 1 bytes, the registers V[0..x]. -/
theorem storeRegistersToMemory : Obligations.StoreRegistersToMemory := by
  unfold Obligations.StoreRegistersToMemory
  intro x s
  refine ⟨_, rfl, fun k hk => s.memRead_storeRegs hk, fun b hb => s.memRead_storeFrom_advance_other fun k hk => hb k ?_, by simp,
    unchanged_mem_pc s _⟩
  rw [State.length_regsUpTo] at hk
  omega

/-- Settles O28: the load of x + 1 registers. -/
theorem loadRegistersFromMemory : Obligations.LoadRegistersFromMemory := by
  unfold Obligations.LoadRegistersFromMemory
  intro x s
  exact ⟨_, rfl, s.readV_loadRegs_advance x, by simp, unchanged_loadRegs s _⟩

/-- Settles O29: the store leaves I, so the load reads the addresses where the store has left the registers. -/
theorem storeThenLoadRestoresRegisters : Obligations.StoreThenLoadRestoresRegisters := by
  unfold Obligations.StoreThenLoadRestoresRegisters
  intro x s t u hstore hi hmem
  cases hstore
  have hi' : u.i = s.i := hi.trans (by simp)
  refine ⟨_, rfl, fun k hk => ?_⟩
  calc (u.loadRegs (x.toNat + 1)).advance.readV k
      = u.memRead (ea u.i k.toNat) := (u.readV_loadRegs_advance x k).trans (if_pos hk)
    _ = (s.storeFrom s.i 0 (s.regsUpTo x)).advance.memRead (ea s.i k.toNat) := by rw [hmem, hi']
    _ = s.readV k := s.memRead_storeRegs hk

end Sys2Proof.Machine
end

section
/-! The statements about the output grid (spec 43_display.md). What a draw leaves in each pixel and in VF is said once, over the laws of
the grid; a second equal draw finds the same sprite over the inverted pixels. -/

namespace Sys2Proof.Machine

/-! ### Clearing -/

/-- CLS keeps every part but the grid and PC, VF among them (43_display.md R161, D34). -/
theorem unchanged_grid_pc (s : State) (g : Grid) : Unchanged [.grid, .pc] s { s with grid := g }.advance := by
  apply unchanged_of_fields <;> simp

/-- Settles O30: the word is the encoder's, and the clear is one write of the grid. -/
theorem clearTurnsEveryCellOff : Obligations.ClearTurnsEveryCellOff := by
  unfold Obligations.ClearTurnsEveryCellOff
  exact fun s => ⟨decodeWord_encode .cls, _, rfl, Grid.get_clear, rfl, unchanged_grid_pc s _⟩

/-! ### One draw -/

/-- The machine after DRW Vx, Vy, n (43_display.md R162). -/
def State.draw (s : State) (x y n : Nibble) : State :=
  let c := Canvas.drawRows { grid := s.grid, hit := false } s (s.readV x) (s.readV y) n.toNat
  ({ s with grid := c.grid }.writeV regVF (collisionFlag c.hit)).advance

/-- Some 1 bit of the sprite DRW Vx, Vy, n would draw lies on a pixel of value b. -/
def Covers (s : State) (x y n : Nibble) (b : Bool) : Prop :=
  ∃ (px : Fin 64) (py : Fin 32), SpriteBit s (s.readV x) (s.readV y) n.toNat px py ∧ Grid.get s.grid px py = b

section
variable (s : State) (x y n : Nibble)

theorem exec_drw : exec (.drw x y n) s = .next (s.draw x y n) := rfl

/-- A nibble of rows is fewer than the 32 of the grid, so no two rows of a sprite share pixels and the laws of a draw apply. -/
theorem nibble_rows_le : n.toNat ≤ 32 := n.isLt.le.trans (by decide)

/-- A draw inverts exactly the pixels under the sprite's 1 bits (43_display.md R162, R163). -/
theorem get_grid_draw (px : Fin 64) (py : Fin 32) :
    (SpriteBit s (s.readV x) (s.readV y) n.toNat px py → Grid.get (s.draw x y n).grid px py = !Grid.get s.grid px py) ∧
    (¬ SpriteBit s (s.readV x) (s.readV y) n.toNat px py → Grid.get (s.draw x y n).grid px py = Grid.get s.grid px py) :=
  Canvas.get_drawRows { grid := s.grid, hit := false } s (s.readV x) (s.readV y) n.toNat (nibble_rows_le n) px py

/-- A draw leaves VF = 1 if the sprite covers a set pixel, else 0 (43_display.md R164). -/
theorem readV_regVF_draw :
    (Covers s x y n true → (s.draw x y n).readV regVF = 1) ∧ (¬ Covers s x y n true → (s.draw x y n).readV regVF = 0) := by
  let c := Canvas.drawRows { grid := s.grid, hit := false } s (s.readV x) (s.readV y) n.toNat
  have hVF : (s.draw x y n).readV regVF = collisionFlag c.hit := State.readV_writeV_self { s with grid := c.grid } regVF _
  have hhit : c.hit = true ↔ Covers s x y n true :=
    (Canvas.hit_drawRows { grid := s.grid, hit := false } s _ _ _ (nibble_rows_le n)).trans (or_iff_right Bool.false_ne_true)
  rw [hVF, ← hhit]
  cases c.hit <;> simp [collisionFlag, flagByte]

theorem regsUnchanged_draw : RegsUnchanged [regVF] s (s.draw x y n) :=
  regsUnchanged_writeV { s with grid := _ } regVF _

theorem unchanged_draw : Unchanged [.grid, .regs, .pc] s (s.draw x y n) := by
  apply unchanged_of_fields <;> simp [State.draw]

end

/-- Settles O31, from what a draw leaves in each pixel. -/
theorem drawInvertsSpriteBits : Obligations.DrawInvertsSpriteBits := by
  unfold Obligations.DrawInvertsSpriteBits
  exact fun x y n s => ⟨_, exec_drw s x y n, get_grid_draw s x y n, regsUnchanged_draw s x y n, rfl, unchanged_draw s x y n⟩

/-- Settles O32, from what a draw leaves in VF. -/
theorem drawSetsCollisionFlag : Obligations.DrawSetsCollisionFlag := by
  unfold Obligations.DrawSetsCollisionFlag
  exact fun x y n s => ⟨_, exec_drw s x y n, readV_regVF_draw s x y n⟩

/-! ### Two equal draws -/

section
variable {s : State} {x y : Nibble} (n : Nibble) (hx : x ≠ regVF) (hy : y ≠ regVF)
include hx hy

/-- A draw keeps I, memory and the registers that hold the coordinates, so a second one draws the same sprite at the same place. -/
theorem spriteBit_draw_iff (px : Fin 64) (py : Fin 32) :
    SpriteBit (s.draw x y n) ((s.draw x y n).readV x) ((s.draw x y n).readV y) n.toNat px py ↔
      SpriteBit s (s.readV x) (s.readV y) n.toNat px py := by
  have hkeep : ∀ r ≠ regVF, (s.draw x y n).readV r = s.readV r := fun r hr => regsUnchanged_draw s x y n r (by simpa using hr)
  rw [hkeep x hx, hkeep y hy]
  rfl

/-- Every pixel is inverted twice or not at all. -/
theorem grid_draw_draw : ((s.draw x y n).draw x y n).grid = s.grid := by
  apply Grid.ext
  intro px py
  have hfirst := get_grid_draw s x y n px py
  have hsecond := get_grid_draw (s.draw x y n) x y n px py
  rw [spriteBit_draw_iff n hx hy] at hsecond
  by_cases hbit : SpriteBit s (s.readV x) (s.readV y) n.toNat px py
  · rw [hsecond.1 hbit, hfirst.1 hbit, Bool.not_not]
  · rw [hsecond.2 hbit, hfirst.2 hbit]

/-- The second draw meets a set pixel where the first has met a clear one (log 31). -/
theorem covers_draw_iff : Covers (s.draw x y n) x y n true ↔ Covers s x y n false := by
  refine exists_congr fun px => exists_congr fun py => ?_
  rw [spriteBit_draw_iff n hx hy]
  refine and_congr_right fun hbit => ?_
  rw [(get_grid_draw s x y n px py).1 hbit, Bool.not_eq_true']

/-- The second of two equal draws leaves VF = 1 if the sprite covers a pixel that was clear before the first, else 0 (log 31). -/
theorem readV_regVF_draw_draw :
    (Covers s x y n false → ((s.draw x y n).draw x y n).readV regVF = 1) ∧
    (¬ Covers s x y n false → ((s.draw x y n).draw x y n).readV regVF = 0) := by
  rw [← covers_draw_iff n hx hy]
  exact readV_regVF_draw (s.draw x y n) x y n

end

/-- Settles O33, from what two equal draws leave in the grid and in VF. -/
theorem drawTwiceRestoresGrid : Obligations.DrawTwiceRestoresGrid := by
  unfold Obligations.DrawTwiceRestoresGrid
  exact fun x y n s hx hy =>
    ⟨_, _, exec_drw s x y n, exec_drw (s.draw x y n) x y n, grid_draw_draw n hx hy, readV_regVF_draw_draw n hx hy⟩

/-- Refutes O34: from the reset state with every pixel set, the first row of the glyph 0 at I = 0 covers no clear pixel, so the second draw
leaves VF = 0. -/
theorem not_secondDrawCollidesWhateverTheGrid : ¬ Obligations.SecondDrawCollidesWhateverTheGrid := by
  unfold Obligations.SecondDrawCollidesWhateverTheGrid
  intro h
  let s : State := { State.reset with grid := Vector.replicate 64 (Vector.replicate 32 true) }
  have hx : (0 : Nibble) ≠ regVF := by decide
  have hy : (1 : Nibble) ≠ regVF := by decide
  have hfont : (State.reset.memRead 0).getLsbD 7 = true := by decide
  have hbit : SpriteBit s (s.readV 0) (s.readV 1) 1 0 0 := ⟨0, 0, by decide, by decide, rfl, rfl, hfont⟩
  have hset (px : Fin 64) (py : Fin 32) : Grid.get s.grid px py = true := by simp [s, Grid.get]
  have hzero : ((s.draw 0 1 1).draw 0 1 1).readV regVF = 0 :=
    (readV_regVF_draw_draw 1 hx hy).2 fun ⟨px, py, _, hclear⟩ => Bool.false_ne_true (hclear.symm.trans (hset px py))
  have hone : ((s.draw 0 1 1).draw 0 1 1).readV regVF = 1 :=
    h 0 1 1 s _ _ hx hy (exec_drw s 0 1 1) (exec_drw (s.draw 0 1 1) 0 1 1) ⟨0, 0, hbit⟩
  exact absurd (hzero.symm.trans hone) (by decide)

/-! ### The host's reads -/

section
variable (s : State) {x y : Int}

theorem gridCoord_iff : WellFormed.gridCoord x y = true ↔ 0 ≤ x ∧ x < 64 ∧ 0 ≤ y ∧ y < 32 := by
  simp [WellFormed.gridCoord, and_assoc]

/-- get inside the grid answers the cell (43_display.md R160). -/
theorem gridGet_cell (px : Fin 64) (py : Fin 32) : gridGet px.val py.val s = .next (Grid.get s.grid px py) := by
  have hin : WellFormed.gridCoord px.val py.val = true := gridCoord_iff.2 (by omega)
  rw [gridGet, if_pos hin, Int.toNat_natCast, Int.toNat_natCast, Fin.ofNat_val_eq_self, Fin.ofNat_val_eq_self]

/-- get outside the grid is refused by name (D29, log 22). -/
theorem gridGet_outside (h : x < 0 ∨ 64 ≤ x ∨ y < 0 ∨ 32 ≤ y) : gridGet x y s = .refused (.gridOutOfRange x y) := by
  have hout : ¬ WellFormed.gridCoord x y = true := fun hin => by
    have := gridCoord_iff.1 hin
    omega
  rw [gridGet, if_neg hout]

/-- The sound signal is ST > 0 (60_exceptions.md R212, D25). -/
theorem soundActive_iff : soundActive s = true ↔ s.st ≠ 0 := by
  rw [soundActive, decide_eq_true_iff]
  bv_omega

end

/-- Settles O53, read by read. -/
theorem hostReadsGridSoundAndFault : Obligations.HostReadsGridSoundAndFault := by
  unfold Obligations.HostReadsGridSoundAndFault
  refine fun x y s => ⟨?_, gridGet_outside s, soundActive_iff s, rfl⟩
  rintro px py rfl rfl
  exact gridGet_cell s px py

end Sys2Proof.Machine
end

section
/-! The statements about keys and timers (spec 44_keys_timers.md). The lowest pressed key is read once in the terms of `keyDown`, and what
LD Vx, K answers with a key and without one is said once. -/

namespace Sys2Proof.Machine

/-! ### Timers -/

section
variable (s : State) (u : Byte)

/-- A new DT and an advance: the frame of FX15 (44_keys_timers.md R185). -/
theorem unchanged_dt_pc : Unchanged [.dt, .pc] s { s with dt := u }.advance := by
  apply unchanged_of_fields <;> simp

/-- A new ST and an advance: the frame of FX18 (44_keys_timers.md R186). -/
theorem unchanged_st_pc : Unchanged [.st, .pc] s { s with st := u }.advance := by
  apply unchanged_of_fields <;> simp

end

/-- Settles O36: the word is the encoder's, and the read is one register write. -/
theorem delayTimerRead : Obligations.DelayTimerRead := by
  unfold Obligations.DelayTimerRead
  intro x s
  exact ⟨decodeWord_eq_ok_iff.2 (wordXK_eq 0xF x 0x07).symm, _, rfl, oneRegisterResult_writeV s rfl⟩

/-- Settles O37: each is one write of its timer. -/
theorem timersSetFromRegister : Obligations.TimersSetFromRegister := by
  unfold Obligations.TimersSetFromRegister
  intro x s
  exact ⟨⟨_, rfl, rfl, rfl, unchanged_dt_pc s _⟩, ⟨_, rfl, rfl, rfl, unchanged_st_pc s _⟩⟩

/-! ### The key skips -/

/-- The key index is the low nibble (44_keys_timers.md R180; D11, log 12). -/
theorem toNat_keyIdx (u : Byte) : (keyIdx u).toNat = u.toNat % 16 := by
  simp [keyIdx]

section
variable {s : State} {x k : Nibble}

/-- SKP is the shared skip at "key k is pressed", for the key k that V[x] names (44_keys_timers.md R181). -/
theorem exec_skp (hk : keyIdx (s.readV x) = k) : exec (.skp x) s = .next (s.skipIf (decide (s.keyDown k = true))) := by
  rw [Bool.decide_eq_true, ← hk]
  rfl

/-- SKNP is the shared skip at "key k is not pressed", for the key k that V[x] names (44_keys_timers.md R182). -/
theorem exec_sknp (hk : keyIdx (s.readV x) = k) : exec (.sknp x) s = .next (s.skipIf (decide (s.keyDown k = false))) := by
  rw [Bool.decide_eq_false, ← hk]
  rfl

end

/-- Settles O35: k is the key V[x] names, and each skip is the shared one at the level of that key. -/
theorem keySkipsUseLowNibble : Obligations.KeySkipsUseLowNibble := by
  unfold Obligations.KeySkipsUseLowNibble
  intro x k s hk
  have hidx : keyIdx (s.readV x) = k := BitVec.eq_of_toNat_eq ((toNat_keyIdx _).trans hk.symm)
  exact ⟨⟨_, exec_skp hidx, skipResult_skipIf s _⟩, ⟨_, exec_sknp hidx, skipResult_skipIf s _⟩⟩

/-! ### The key wait -/

section
variable {s : State}

/-- The pressed key below which none is pressed is the lowest one (44_keys_timers.md R184; D12, log 13). -/
theorem State.lowestKey_of_keyDown {k : Nibble} (hk : s.keyDown k = true) (hlow : ∀ j : Nibble, j.toNat < k.toNat → s.keyDown j = false) :
    s.lowestKey = some k.toNat :=
  State.lowestKey_eq_some.2 ⟨k.isLt, hk, fun j hj => hlow (BitVec.ofNatLT j (hj.trans k.isLt)) hj⟩

/-- There is no lowest key exactly when no key is down. -/
theorem State.lowestKey_eq_none_iff_keyDown : s.lowestKey = none ↔ ∀ k : Nibble, s.keyDown k = false :=
  State.lowestKey_eq_none.trans ⟨fun h k => h k.toNat k.isLt, fun h j hj => h (BitVec.ofNatLT j hj)⟩

variable (x : Nibble)

/-- LD Vx, K with a key pressed takes the lowest and completes (44_keys_timers.md R184). -/
theorem exec_ldVxK_of_some {k : Nat} (h : s.lowestKey = some k) :
    exec (.ldVxK x) s = .next { s.writeV x (BitVec.ofNat 8 k) with waitKey := false }.advance := by
  simp only [exec, execLdVxK, h]

/-- LD Vx, K with no key pressed waits (44_keys_timers.md R184; D13, log 13). -/
theorem exec_ldVxK_of_none (h : s.lowestKey = none) : exec (.ldVxK x) s = .next s.wait := by
  simp only [exec, execLdVxK, h]

variable (s)

/-- A completed key wait keeps every part but the registers, wait_key and PC. -/
theorem unchanged_writeV_waitKey (u : Byte) (b : Bool) :
    Unchanged [.regs, .waitKey, .pc] s { s.writeV x u with waitKey := b }.advance := by
  apply unchanged_of_fields <;> simp

/-- The outcome Wait keeps every part but wait_key, PC among them (30_encoding.md R82). -/
theorem unchanged_wait : Unchanged [.waitKey] s s.wait := by
  apply unchanged_of_fields <;> simp

end

/-- Settles O38: k is the lowest key, and an index below 16 is kept whole as a byte. -/
theorem keyWaitTakesLowestKey : Obligations.KeyWaitTakesLowestKey := by
  unfold Obligations.KeyWaitTakesLowestKey
  intro x k s hk hlow
  have hbyte : (BitVec.ofNat 8 k.toNat).toNat = k.toNat := Nat.mod_eq_of_lt (k.isLt.trans (by decide))
  have hread : (s.writeV x (BitVec.ofNat 8 k.toNat)).readV x = BitVec.ofNat 8 k.toNat := State.readV_writeV_self s x _
  exact ⟨_, exec_ldVxK_of_some x (State.lowestKey_of_keyDown hk hlow), (congrArg BitVec.toNat hread).trans hbyte,
    regsUnchanged_writeV s x _, rfl, rfl, unchanged_writeV_waitKey s x _ _⟩

/-- Settles O39: without a lowest key the outcome is Wait, which writes wait_key alone. -/
theorem keyWaitBlocksWithoutKey : Obligations.KeyWaitBlocksWithoutKey := by
  unfold Obligations.KeyWaitBlocksWithoutKey
  intro x s hup
  exact ⟨_, exec_ldVxK_of_none x (State.lowestKey_eq_none_iff_keyDown.2 hup), rfl, rfl, unchanged_wait s⟩

end Sys2Proof.Machine
end

section
/-! The statements about faults, the tick and the host's calls (spec 60_exceptions.md). How an instruction phase can end is said once, over
the runs of the core; the statements about ticks are read off it. A host call that touches no field of the invariant keeps it. -/

namespace Sys2Proof.Machine

/-! ### Frames -/

section
variable {but : List Part} {s t u : State}

theorem Part.Same.trans {p : Part} (hst : p.Same s t) (htu : p.Same t u) : p.Same s u := by
  cases p with
  | regs => exact fun x => (htu x).trans (hst x)
  | mem => exact fun a => (htu a).trans (hst a)
  | _ => exact Eq.trans htu hst

theorem Unchanged.refl (but : List Part) (s : State) : Unchanged but s s := by
  intro p _
  cases p with
  | regs | mem => exact fun _ => rfl
  | _ => rfl

theorem Unchanged.trans (hst : Unchanged but s t) (htu : Unchanged but t u) : Unchanged but s u :=
  fun p hp => (hst p hp).trans (htu p hp)

/-- A frame that keeps memory and PC keeps the word at PC. -/
theorem Unchanged.fetch_eq (h : Unchanged but s t) (hmem : .mem ∉ but) (hpc : .pc ∉ but) : t.fetch = s.fetch := by
  have hread : ∀ a, t.memRead a = s.memRead a := h .mem hmem
  have hpc' : t.pc = s.pc := h .pc hpc
  simp only [State.fetch, hread, hpc']

variable (s)

/-- The decrement of the timers writes DT and ST and nothing else (60_exceptions.md R210). -/
theorem unchanged_timersDown : Unchanged [.dt, .st] s s.timersDown := by
  apply unchanged_of_fields <;> simp

/-- A tick that waits writes wait_key and the timers and nothing else (60_exceptions.md R213). -/
theorem unchanged_wait_timersDown : Unchanged [.waitKey, .dt, .st] s s.wait.timersDown := by
  apply unchanged_of_fields <;> simp

end

/-! ### What the key calls and load do -/

section
variable {index : Int} (b : Bool) (s : State)

theorem keyIndex_iff : WellFormed.keyIndex index = true ↔ 0 ≤ index ∧ index ≤ 15 := by
  simp [WellFormed.keyIndex]

/-- A call with an index of a key sets that key and no other (60_exceptions.md R215). -/
theorem keyDown_setKey (h0 : 0 ≤ index) (h15 : index ≤ 15) (k : Nibble) :
    (setKey index b s).keyDown k = if (k.toNat : Int) = index then b else s.keyDown k := by
  obtain ⟨j, rfl⟩ := Int.eq_ofNat_of_zero_le h0
  rw [setKey, if_pos (keyIndex_iff.2 ⟨h0, h15⟩)]
  simp only [State.keyDown, Int.toNat_natCast, Vector.getElem_setIfInBounds, Int.natCast_inj, eq_comm]

/-- A call with any other index does nothing (60_exceptions.md R215; D22, log 19). -/
theorem setKey_outside (h : index < 0 ∨ 15 < index) : setKey index b s = s := by
  have hout : ¬ WellFormed.keyIndex index = true := fun hin => by
    have := keyIndex_iff.1 hin
    omega
  rw [setKey, if_neg hout]

variable (index)

/-- A key call changes the keys and nothing else. -/
theorem setKey_eq : setKey index b s = { s with key := (setKey index b s).key } := by
  unfold setKey
  split <;> rfl

theorem setKey_fault : (setKey index b s).fault = s.fault := by rw [setKey_eq]

theorem unchanged_setKey : Unchanged [.key] s (setKey index b s) := by
  rw [setKey_eq]
  apply unchanged_of_fields <;> simp

end

section
variable {bytes : List Byte} (s : State)

theorem imageFits_iff : WellFormed.imageFits bytes = true ↔ bytes.length ≤ 3584 := decide_eq_true_iff

/-- A load that succeeds is a reset and then the copy (70_reset_and_hazards.md R242). -/
theorem load_of_fits (h : bytes.length ≤ 3584) : load bytes s = ((hostReset s).storeFrom Config.loadBase 0 bytes, .ok) :=
  if_pos (imageFits_iff.2 h)

/-- A load that is too large changes nothing (70_reset_and_hazards.md R242; D23, log 20). -/
theorem load_of_too_large (h : ¬ bytes.length ≤ 3584) : load bytes s = (s, .tooLarge) :=
  if_neg (mt imageFits_iff.1 h)

end

/-! ### The step and faults -/

/-- A machine with a fault record has no step (60_exceptions.md R204). -/
theorem step_of_fault {s : State} {r : FaultRecord} (h : s.fault = some r) : step s = .fault (.halted r) := by
  simp only [step, h]

/-- Settles O8, from the step of a machine with a record. -/
theorem faultedMachineHasNoStep : Obligations.FaultedMachineHasNoStep :=
  fun _ _ h => step_of_fault h

/-- Settles O7: the step is the entry of the fault at the word fetched. -/
theorem invalidWordTakesFault : Obligations.InvalidWordTakesFault := by
  unfold Obligations.InvalidWordTakesFault
  intro s e hf hd
  exact ⟨_, step_of_reject hf hd, rfl, unchanged_raiseFault s _ _⟩

/-- Settles O9: a record after a step is that of a fault the state before explains. -/
theorem faultsArePrecise : Obligations.FaultsArePrecise := by
  unfold Obligations.FaultsArePrecise
  intro s t r h hr
  rcases step_fault_cases h with hf | ⟨kind, hk, rfl⟩
  · cases hf.symm.trans hr
  · cases hr
    exact ⟨rfl, rfl, hk, unchanged_raiseFault s kind _⟩

/-! ### The invariant -/

/-- What explains a fault is SP and the word at PC. -/
theorem FaultKind.Explains.congr {s t : State} {kind : FaultKind} (hsp : t.sp = s.sp) (hfetch : t.fetch = s.fetch) (h : kind.Explains s) :
    kind.Explains t := by
  cases kind <;> simpa only [FaultKind.Explains, hsp, hfetch] using h

/-- The invariant speaks of SP, memory, PC, wait_key, the fault record and the parameters alone. -/
theorem State.Inv.congr {s t : State} (hs : s.Inv) (hsp : t.sp = s.sp) (hmem : t.mem = s.mem) (hpc : t.pc = s.pc)
    (hwait : t.waitKey = s.waitKey) (hfault : t.fault = s.fault) (hparams : t.params = s.params) : t.Inv := by
  have hfetch : t.fetch = s.fetch := State.fetch_congr hmem hparams hpc
  refine ⟨by rw [hsp]; exact hs.spLegal, by rw [hparams, hmem]; exact hs.memCanonical, fun hw => ?_, fun r hr => ?_⟩
  · rw [hfetch]
    exact hs.waitCoherent (hwait.symm.trans hw)
  · obtain ⟨hrpc, hrop, hrkind⟩ := hs.faultCoherent r (hfault.symm.trans hr)
    exact ⟨hrpc.trans hpc.symm, hrop.trans hfetch.symm, hrkind.congr hsp hfetch⟩

theorem inv_timersDown {s : State} (hs : s.Inv) : s.timersDown.Inv := hs.congr rfl rfl rfl rfl rfl rfl

theorem inv_tick (ipt : Nat) {s : State} (hs : s.Inv) : (tick ipt s).1.Inv :=
  tick_induct stepKeepsInvariant (fun _ => inv_timersDown) ipt hs

theorem inv_hostReset (s : State) : (hostReset s).Inv := (inv_resetWith s.params).congr rfl rfl rfl rfl rfl rfl

/-- Right after reset there is neither a wait nor a record, and an image copied over memory keeps both so (70_reset_and_hazards.md R242). -/
theorem inv_storeFrom_hostReset (s : State) (base : Word) (k : Nat) (us : List Byte) : ((hostReset s).storeFrom base k us).Inv where
  spLegal := by rw [State.storeFrom_sp]; exact (inv_hostReset s).spLegal
  memCanonical := by rw [State.storeFrom_params]; exact State.wf_storeFrom base k us (inv_hostReset s).memCanonical
  waitCoherent := fun hw => by simp at hw
  faultCoherent := fun r hr => by simp at hr

theorem inv_load (bytes : List Byte) {s : State} (hs : s.Inv) : (load bytes s).1.Inv := by
  by_cases hfits : bytes.length ≤ 3584
  · rw [load_of_fits s hfits]
    exact inv_storeFrom_hostReset s _ _ _
  · rwa [load_of_too_large s hfits]

theorem inv_setKey (index : Int) (b : Bool) {s : State} (hs : s.Inv) : (setKey index b s).Inv := by
  rw [setKey_eq]
  exact hs.congr rfl rfl rfl rfl rfl rfl

theorem inv_hostCall (ipt : Nat) (c : HostCall) {s : State} (hs : s.Inv) : (hostCall ipt c s).Inv := by
  cases c with
  | tick => exact inv_tick ipt hs
  | reset => exact inv_hostReset s
  | load bytes => exact inv_load bytes hs
  | setKeyDown index => exact inv_setKey index true hs
  | setKeyUp index => exact inv_setKey index false hs

/-- Settles O60: every call keeps the invariant, and so it goes from construction to every reachable state. -/
theorem hostCallsKeepInvariant : Obligations.HostCallsKeepInvariant :=
  ⟨fun ipt c _ hs => inv_hostCall ipt c hs, fun ipt _ h => h.induct inv_resetWith fun c _ hs => inv_hostCall ipt c hs⟩

/-! ### How an instruction phase ends -/

section
variable {n k : Nat} {s t u : State}

/-- A run of the core that answers a next state, taken apart at its first step. -/
theorem core_run_succ_cases (h : Sys2Proof.core.run (n + 1) s = .next u) : ∃ t, step s = .next t ∧ Sys2Proof.core.run n t = .next u := by
  rcases step_outcome s with ⟨t, ht⟩ | ⟨r, -, hr⟩ | ⟨-, hr⟩
  · exact ⟨t, ht, (core_run_succ ht).symm.trans h⟩
  all_goals
    have hstop : Sys2Proof.core.step s = _ := hr
    simp only [Host.Core.run, hstop] at h
    cases h

/-- A run that ends without a fault record began without one: a record stops the core (60_exceptions.md R204). -/
theorem fault_of_core_run (h : Sys2Proof.core.run n s = .next t) (ht : t.fault = none) : s.fault = none := by
  cases n with
  | zero => cases h; exact ht
  | succ n =>
    obtain ⟨u, hu, -⟩ := core_run_succ_cases h
    exact (step_next_cases hu).1

theorem core_run_sp_le (h : Sys2Proof.core.run n s = .next u) (hs : s.sp.toNat ≤ 16) : u.sp.toNat ≤ 16 := by
  induction n generalizing s with
  | zero => cases h; exact hs
  | succ n ih =>
    obtain ⟨t, ht, hu⟩ := core_run_succ_cases h
    exact ih hu (step_sp_le ht hs)

/-- How an instruction phase of up to n steps from s can end (60_exceptions.md R209): after all n steps, or sooner, after k of them, at a
Wait, at a step that faults, or at the stop of an SP above 16 (log 24). -/
inductive PhaseEnds (n : Nat) (s : State) : State × TickStatus → Prop where
  | ok (t : State) : Sys2Proof.core.run n s = .next t → t.fault = none → PhaseEnds n s (t, .ok)
  | waiting (k : Nat) (u : State) : k < n → Sys2Proof.core.run k s = .next u → u.fault = none → waitsForKey u = true →
      PhaseEnds n s (u.wait, .waiting)
  | faulted (k : Nat) (u t : State) : k < n → Sys2Proof.core.run k s = .next u → step u = .next t → t.fault ≠ none →
      PhaseEnds n s (t, .faulted)
  | stopped (k : Nat) (u : State) : k < n → Sys2Proof.core.run k s = .next u → 16 < u.sp.toNat → PhaseEnds n s (u, .faulted)

/-- A phase after one more step before it ends the same way. -/
theorem PhaseEnds.of_step {r : State × TickStatus} (hst : step s = .next t) (h : PhaseEnds n t r) : PhaseEnds (n + 1) s r := by
  have hrun {k : Nat} {u : State} (hu : Sys2Proof.core.run k t = .next u) : Sys2Proof.core.run (k + 1) s = .next u :=
    (core_run_succ hst).trans hu
  cases h with
  | ok t' ht' hf => exact .ok t' (hrun ht') hf
  | waiting k u hk hu hf hw => exact .waiting (k + 1) u (Nat.succ_lt_succ hk) (hrun hu) hf hw
  | faulted k u t' hk hu ht' hf => exact .faulted (k + 1) u t' (Nat.succ_lt_succ hk) (hrun hu) ht' hf
  | stopped k u hk hu hsp => exact .stopped (k + 1) u (Nat.succ_lt_succ hk) (hrun hu) hsp

/-- The instruction phase of a machine without a fault record ends in one of these ways. -/
theorem phaseEnds_runSteps (n : Nat) (hf : s.fault = none) : PhaseEnds n s (runSteps n s) := by
  induction n generalizing s with
  | zero => exact .ok s rfl hf
  | succ n ih =>
    rcases step_outcome s with ⟨t, hst⟩ | ⟨r, hr, -⟩ | ⟨hsp, hstop⟩
    · rw [runSteps_succ hst]
      split
      next hw =>
        obtain rfl : s.wait = t := Host.Outcome.next.inj ((step_of_waits hf hw).symm.trans hst)
        exact .waiting 0 s n.succ_pos rfl hf hw
      next =>
        split
        next ht => exact .faulted 0 s t n.succ_pos rfl hst (Option.isSome_iff_ne_none.1 ht)
        next ht => exact (ih (Option.not_isSome_iff_eq_none.1 ht)).of_step hst
    · cases hf.symm.trans hr
    · have hend : runSteps (n + 1) s = (s, .faulted) := by simp only [runSteps, hstop]
      rw [hend]
      exact .stopped 0 s n.succ_pos rfl hsp

/-- Steps that neither wait nor leave a fault record are a phase that ends ok (60_exceptions.md R209). -/
theorem runSteps_of_core_run (h : Sys2Proof.core.run n s = .next t) (ht : t.fault = none)
    (hw : ∀ k u, k < n → Sys2Proof.core.run k s = .next u → waitsForKey u = false) : runSteps n s = (t, .ok) := by
  induction n generalizing s with
  | zero => cases h; rfl
  | succ n ih =>
    obtain ⟨u, hu, hrun⟩ := core_run_succ_cases h
    have huw : waitsForKey s = false := hw 0 s n.succ_pos rfl
    have huf : u.fault = none := fault_of_core_run hrun ht
    have hrest : runSteps n u = (t, .ok) :=
      ih hrun fun k v hk hv => hw (k + 1) v (Nat.succ_lt_succ hk) ((core_run_succ hu).trans hv)
    simp only [runSteps_succ hu, huw, huf, hrest, Bool.false_eq_true, Option.isSome_none, if_false]

end

/-! ### The tick -/

section
variable {ipt : Nat} {s : State}

/-- A tick of a machine with a fault record (60_exceptions.md R209; D17, log 16). -/
theorem tick_of_fault {r : FaultRecord} (h : s.fault = some r) : tick ipt s = (s.timersDown, .faulted) := by
  simp only [tick, h, Option.isSome_some, if_true]

/-- A tick that does not return faulted found no fault record. -/
theorem fault_of_tick_ne (h : (tick ipt s).2 ≠ .faulted) : s.fault = none := by
  cases hf : s.fault with
  | none => rfl
  | some r => rw [tick_of_fault hf] at h; exact absurd rfl h

/-- The instruction phase of a machine with a fault record goes nowhere. -/
theorem runSteps_fst_of_fault {r : FaultRecord} (h : s.fault = some r) : (runSteps ipt s).1 = s := by
  cases ipt with
  | zero => rfl
  | succ n => simp only [runSteps, step_of_fault h]

/-- Every tick decrements the timers that its instruction phase leaves, that of a faulted machine among them (60_exceptions.md R210; D17,
log 16). -/
theorem tick_fst (ipt : Nat) (s : State) : (tick ipt s).1 = (runSteps ipt s).1.timersDown := by
  cases hf : s.fault with
  | none => rw [tick_of_running hf]
  | some r => rw [tick_of_fault hf, runSteps_fst_of_fault hf]

end

/-- Settles O45: the tick is the decrement of the timers. -/
theorem faultedTickOnlyDecrementsTimers : Obligations.FaultedTickOnlyDecrementsTimers := by
  unfold Obligations.FaultedTickOnlyDecrementsTimers
  intro ipt s r h
  rw [tick_of_fault h]
  exact ⟨rfl, toNat_timerDown s.dt, toNat_timerDown s.st, unchanged_timersDown s⟩

/-- Settles O43: of the ends of a phase only the full run has the status ok, and a run without a wait or a record is such a phase. -/
theorem tickOkRunsItsInstructions : Obligations.TickOkRunsItsInstructions := by
  unfold Obligations.TickOkRunsItsInstructions
  refine ⟨fun ipt s hok => ?_, fun ipt s t h ht hw => ?_⟩
  · have hf : s.fault = none := fault_of_tick_ne (by rw [hok]; decide)
    have hend := phaseEnds_runSteps ipt hf
    rw [tick_of_running hf] at hok ⊢
    generalize runSteps ipt s = r at hend hok
    cases hend with
    | ok t hrun ht => exact ⟨t, hrun, ht, rfl⟩
    | waiting | faulted | stopped => cases hok
  · rw [tick_of_running (fault_of_core_run h ht), runSteps_of_core_run h ht hw]

/-- Settles O44: the ends of a phase with the status waiting or faulted, of which a legal SP shuts out the stop at an SP above 16. -/
theorem tickStopsOnlyAtWaitOrFault : Obligations.TickStopsOnlyAtWaitOrFault := by
  unfold Obligations.TickStopsOnlyAtWaitOrFault
  intro ipt s hf hsp
  have hend := phaseEnds_runSteps ipt hf
  rw [tick_of_running hf]
  generalize runSteps ipt s = r at hend
  cases hend with
  | ok => exact ⟨nofun, nofun⟩
  | waiting k u hk hrun huf hw =>
    obtain ⟨hx, hnone⟩ := waitsForKey_iff.1 hw
    exact ⟨fun _ => ⟨k, u, hk, hrun, huf, hx, State.lowestKey_eq_none_iff_keyDown.1 hnone, rfl⟩, nofun⟩
  | faulted k u t hk hrun hst ht => exact ⟨nofun, fun _ => ⟨k, u, t, hk, hrun, hst, ht, rfl⟩⟩
  | stopped k u hk hrun hsp' => exact absurd (core_run_sp_le hrun hsp) (Nat.not_le.2 hsp')

/-- Settles O47, by induction on the number of ticks: each takes 1 from the DT its instructions have left alone, down to 0. -/
theorem delayTimerCountsDownToZero : Obligations.DelayTimerCountsDownToZero := by
  unfold Obligations.DelayTimerCountsDownToZero
  intro ipt n
  induction n with
  | zero => exact fun s _ => rfl
  | succ n ih =>
    intro s h
    have hphase : (runSteps ipt s).1.dt = s.dt := h 0 n.succ_pos
    have hfirst : (tick ipt s).1.dt.toNat = s.dt.toNat - 1 := by
      rw [tick_fst, State.timersDown_dt, hphase, toNat_timerDown]
    calc (ticks ipt (n + 1) s).dt.toNat
        = (tick ipt s).1.dt.toNat - n := ih (tick ipt s).1 fun k hk => h (k + 1) (Nat.succ_lt_succ hk)
      _ = s.dt.toNat - (n + 1) := by rw [hfirst, Nat.sub_sub, Nat.add_comm]

/-! ### The key wait across ticks -/

section
variable {ipt : Nat} {s t : State}

/-- n + 1 ticks, with the last one split off. -/
theorem ticks_succ_last (ipt n : Nat) (s : State) : ticks ipt (n + 1) s = (tick ipt (ticks ipt n s)).1 := by
  induction n generalizing s with
  | zero => rfl
  | succ n ih => exact ih (tick ipt s).1

/-- A tick that starts at an FX0A with no key pressed waits and decrements the timers (60_exceptions.md R213; D13, D17). -/
theorem tick_of_waits (hipt : 1 ≤ ipt) (hf : s.fault = none) (hw : waitsForKey s = true) : tick ipt s = (s.wait.timersDown, .waiting) := by
  obtain ⟨n, rfl⟩ := Nat.exists_eq_add_of_le' hipt
  rw [tick_of_running hf, runSteps_succ (step_of_waits hf hw), if_pos hw]

/-- A tick whose first step neither waits nor faults goes on after it (60_exceptions.md R209). -/
theorem tick_of_first_step (hipt : 1 ≤ ipt) (hst : step s = .next t) (hw : waitsForKey s = false) (ht : t.fault = none) :
    tick ipt s = ((runSteps (ipt - 1) t).1.timersDown, (runSteps (ipt - 1) t).2) := by
  obtain ⟨n, rfl⟩ := Nat.exists_eq_add_of_le' hipt
  have hphase : runSteps (n + 1) s = runSteps n t := by
    simp only [runSteps_succ hst, hw, ht, Bool.false_eq_true, Option.isSome_none, if_false]
  rw [tick_of_running (step_next_cases hst).1, hphase, Nat.add_sub_cancel]

/-- What n ticks that all wait leave of s: the timers are n lower with a floor of 0, wait_key may be set, the rest is as it was. -/
structure WaitedFor (n : Nat) (s t : State) : Prop where
  dt : t.dt.toNat = s.dt.toNat - n
  st : t.st.toNat = s.st.toNat - n
  frame : Unchanged [.waitKey, .dt, .st] s t

/-- A wait moves nothing it is decided by: the word at PC and the keys. -/
theorem WaitedFor.waitsForKey {n : Nat} (h : WaitedFor n s t) (hw : waitsForKey s = true) : waitsForKey t = true := by
  have hfetch : t.fetch = s.fetch := h.frame.fetch_eq (by decide) (by decide)
  have hkey : t.key = s.key := h.frame .key (by decide)
  rw [waitsForKey_iff] at hw ⊢
  rwa [hfetch, State.lowestKey, hkey]

theorem WaitedFor.fault {n : Nat} (h : WaitedFor n s t) (hf : s.fault = none) : t.fault = none := by
  have hsame : t.fault = s.fault := h.frame .fault (by decide)
  exact hsame.trans hf

theorem WaitedFor.succ {n : Nat} (h : WaitedFor n s t) : WaitedFor (n + 1) s t.wait.timersDown where
  dt := by rw [State.timersDown_dt, toNat_timerDown, State.wait_dt, h.dt, Nat.sub_sub]
  st := by rw [State.timersDown_st, toNat_timerDown, State.wait_st, h.st, Nat.sub_sub]
  frame := h.frame.trans (unchanged_wait_timersDown t)

/-- A machine that waits for a key waits over any number of ticks. -/
theorem waitedFor_ticks (hipt : 1 ≤ ipt) (hf : s.fault = none) (hw : waitsForKey s = true) (n : Nat) : WaitedFor n s (ticks ipt n s) := by
  induction n with
  | zero => exact ⟨rfl, rfl, Unchanged.refl _ s⟩
  | succ n ih =>
    rw [ticks_succ_last, tick_of_waits hipt (ih.fault hf) (ih.waitsForKey hw)]
    exact ih.succ

end

/-- Settles O46: without a key every tick finds the machine as it was but for wait_key and the timers; with one, the first step of the tick
is the completed FX0A. -/
theorem keyWaitAcrossTicks : Obligations.KeyWaitAcrossTicks := by
  unfold Obligations.KeyWaitAcrossTicks
  intro ipt x s hipt hf hd
  refine ⟨fun hup n => ?_, fun ⟨k, hk⟩ => ?_⟩
  · have hw : waitsForKey s = true := waitsForKey_iff.2 ⟨⟨x, hd⟩, State.lowestKey_eq_none_iff_keyDown.2 hup⟩
    have hn : WaitedFor n s (ticks ipt n s) := waitedFor_ticks hipt hf hw n
    have hlast : tick ipt (ticks ipt n s) = ((ticks ipt n s).wait.timersDown, .waiting) :=
      tick_of_waits hipt (hn.fault hf) (hn.waitsForKey hw)
    rw [ticks_succ_last, hlast]
    exact ⟨rfl, rfl, hn.frame .pc (by decide), hn.succ.dt, hn.succ.st, hn.succ.frame⟩
  · have hsome : s.lowestKey ≠ none := fun hnone => by
      rw [State.lowestKey_eq_none_iff_keyDown.1 hnone k] at hk
      cases hk
    obtain ⟨j, hj⟩ := Option.ne_none_iff_exists'.1 hsome
    have hexec := exec_ldVxK_of_some x hj
    have hnowait : waitsForKey s = false := Bool.eq_false_iff.2 fun hw => hsome (waitsForKey_iff.1 hw).2
    exact ⟨_, hexec, rfl, rfl, tick_of_first_step hipt ((step_of_decode hf hd).trans hexec) hnowait hf⟩

/-! ### The statements about the key calls and the fault record -/

/-- Settles O52: both calls are the shared one. -/
theorem keyCallsSetOneKey : Obligations.KeyCallsSetOneKey := by
  unfold Obligations.KeyCallsSetOneKey
  intro index s
  exact ⟨fun h0 h15 => ⟨keyDown_setKey true s h0 h15, keyDown_setKey false s h0 h15⟩,
    fun h => ⟨setKey_outside true s h, setKey_outside false s h⟩, unchanged_setKey index true s, unchanged_setKey index false s⟩

/-- Settles O54, call by call. -/
theorem faultStaysUntilResetOrLoad : Obligations.FaultStaysUntilResetOrLoad := by
  unfold Obligations.FaultStaysUntilResetOrLoad
  refine ⟨fun ipt c s r hf hreset hload => ?_, fun ipt s => rfl, fun ipt bytes s hfits => ?_⟩
  · cases c with
    | tick => simpa only [hostCall, tick_of_fault hf, State.timersDown_fault] using hf
    | reset => exact absurd rfl hreset
    | load bytes => simpa only [hostCall, load_of_too_large s fun hfits => hload bytes hfits rfl] using hf
    | setKeyDown index => exact (setKey_fault index true s).trans hf
    | setKeyUp index => exact (setKey_fault index false s).trans hf
  · simp only [hostCall, load_of_fits s hfits, State.storeFrom_fault, hostReset_fault, State.resetWith_fault]

end Sys2Proof.Machine
end

section
/-! The statements about reset and load (spec 70_reset_and_hazards.md). A machine after reset() is a newly constructed one but for the model's
own draw counter, and a sequence of stores neither reads nor writes that counter. -/

namespace Sys2Proof.Machine

/-! ### The reset state -/

section
variable (p : Config.Params)

@[simp] theorem State.readV_resetWith (x : Nibble) : (State.resetWith p).readV x = 0 :=
  Vector.getElem_replicate x.isLt

@[simp] theorem State.getElem_stack_resetWith (j : Nat) (h : j < 16) : (State.resetWith p).stack[j] = 0 :=
  Vector.getElem_replicate h

@[simp] theorem State.keyDown_resetWith (k : Nibble) : (State.resetWith p).keyDown k = false :=
  Vector.getElem_replicate k.isLt

/-- The grid after reset is a clear one (10_state.md R36). -/
@[simp] theorem State.get_grid_resetWith (px : Fin 64) (py : Fin 32) : Grid.get (State.resetWith p).grid px py = false :=
  Grid.get_clear px py

end

section
variable (s : State) (n : Nat)

/-- Construction and reset() leave the reset state, with some value of the draw counter (70_reset_and_hazards.md R240, R241; log 1). -/
theorem exists_draws_of_reset {p : Config.Params} {t : State} (h : t = State.resetWith p ∨ (s.params = p ∧ t = hostReset s)) :
    ∃ n, t = { State.resetWith p with draws := n } := by
  obtain rfl | ⟨rfl, rfl⟩ := h
  · exact ⟨(State.resetWith p).draws, rfl⟩
  · exact ⟨s.draws, rfl⟩

/-- Another draw counter is no other part of the state. -/
theorem unchanged_draws : Unchanged [.draws] s { s with draws := n } := by
  apply unchanged_of_fields <;> simp

/-- Stores do not look at the draw counter. -/
theorem State.storeFrom_draws_comm (base : Word) (k : Nat) (us : List Byte) :
    State.storeFrom { s with draws := n } base k us = { s.storeFrom base k us with draws := n } := by
  induction us generalizing s k with
  | nil => rfl
  | cons u us ih => exact ih (s.memWrite (ea base k) u) (k + 1)

end

/-- Settles O48: both ways give the reset state, and the draw counter is none of the parts read. -/
theorem resetGivesResetValues : Obligations.ResetGivesResetValues := by
  unfold Obligations.ResetGivesResetValues
  refine ⟨rfl, fun p s t h => ?_⟩
  obtain ⟨n, rfl⟩ := exists_draws_of_reset s h
  exact ⟨rfl, rfl, State.readV_resetWith p, rfl, State.getElem_stack_resetWith p, rfl, rfl, State.keyDown_resetWith p,
    State.get_grid_resetWith p, rfl, rfl, rfl, fun _ => rfl⟩

/-! ### Loading -/

section
variable {bytes : List Byte} (s : State)

/-- An image that fits stays below 0x1000, so its addresses are not reduced (70_reset_and_hazards.md R242). -/
theorem toNat_ea_loadBase {k : Nat} (hk : k < 3584) : (ea Config.loadBase k).toNat = 0x200 + k := by
  have hbase : Config.loadBase.toNat = 0x200 := rfl
  rw [toNat_ea, hbase]
  omega

/-- Byte k of a loaded image stands at 0x200 + k. -/
theorem memRead_load (hfits : bytes.length ≤ 3584) {k : Nat} (hk : k < bytes.length) :
    (load bytes s).1.memRead (BitVec.ofNat 16 (0x200 + k)) = bytes[k] := by
  have haddr : mask12 (BitVec.ofNat 16 (0x200 + k)) = ea Config.loadBase (0 + k) := by
    rw [Nat.zero_add, ea, BitVec.ofNat_add]
    rfl
  rw [← State.memRead_mask12, haddr, load_of_fits s hfits]
  exact State.memRead_storeFrom _ _ 0 bytes (by omega) k hk

/-- A loaded image changes no byte outside its own addresses. -/
theorem memRead_load_other (hfits : bytes.length ≤ 3584) {a : Word}
    (ha : (mask12 a).toNat < 0x200 ∨ 0x200 + bytes.length ≤ (mask12 a).toNat) :
    (load bytes s).1.memRead a = (State.resetWith s.params).memRead a := by
  have houtside : ∀ j < bytes.length, mask12 a ≠ ea Config.loadBase (0 + j) := fun j hj heq => by
    have haddr : (mask12 a).toNat = 0x200 + j := by rw [heq, Nat.zero_add, toNat_ea_loadBase (by omega)]
    omega
  rw [load_of_fits s hfits]
  exact State.memRead_storeFrom_other _ _ 0 bytes a houtside

/-- A load that succeeds leaves every part but memory and the draw counter as after reset (D23, log 20). -/
theorem unchanged_load (hfits : bytes.length ≤ 3584) : Unchanged [.mem, .draws] (State.resetWith s.params) (load bytes s).1 := by
  rw [load_of_fits s hfits]
  apply unchanged_of_fields <;> simp

/-- Loading after a reset is loading into a new machine, with the draw counter of the old one (D33, log 1). -/
theorem load_hostReset (hfits : bytes.length ≤ 3584) :
    (load bytes (hostReset s)).1 = { (load bytes (State.resetWith s.params)).1 with draws := s.draws } := by
  rw [load_of_fits _ hfits, load_of_fits _ hfits]
  exact State.storeFrom_draws_comm (State.resetWith s.params) s.draws Config.loadBase 0 bytes

end

/-- Settles O50: the image's own bytes, the other bytes, the other parts, and the image that is refused. -/
theorem loadPlacesProgram : Obligations.LoadPlacesProgram := by
  unfold Obligations.LoadPlacesProgram
  intro bytes s
  refine ⟨fun hfits => ⟨?_, fun k hk => memRead_load s hfits hk, fun a ha => memRead_load_other s hfits ha, unchanged_load s hfits⟩,
    fun hlarge => load_of_too_large s (by omega)⟩
  rw [load_of_fits s hfits]

/-- Settles O51: the two machines differ in the draw counter alone. -/
theorem reloadIsFreshLoad : Obligations.ReloadIsFreshLoad := by
  unfold Obligations.ReloadIsFreshLoad
  intro bytes s hfits
  rw [load_hostReset s hfits]
  exact ⟨unchanged_draws _ s.draws, rfl⟩

end Sys2Proof.Machine
end
